-- ==== Sys2Proof/Word.lean ====
section
/-! DEFINITION. The word types of the page-translation mechanism: bytes, 64-bit words (entries, CR3), 64-bit virtual
addresses (R20) and 52-bit physical addresses (R21). -/

namespace Sys2Proof

/-- One byte of physical memory (R17). -/
abbrev Byte := BitVec 8

/-- A 64-bit value: CR3 (R7) or a table entry (R26). -/
abbrev Word := BitVec 64

/-- A virtual address: 64 bits, naming one byte (R20). -/
abbrev VAddr := BitVec 64

/-- A physical address: at most 52 bits, naming one byte (R21). -/
abbrev PAddr := BitVec 52

end Sys2Proof
end

