-- ==== Sys2Proof/Config.lean ====
section
/-! DEFINITION. What an implementation or a launch fixes (00_scope.md §4) and the access descriptor a requester hands over
(00_scope.md §5). The values are plain data held by State and changed by no step (logs 5 to 8). -/

namespace Sys2Proof

/-- `acc.kind` (00_scope.md §5). A fetch is one more kind of reference (20_memory.md §1, D20). -/
inductive AccKind where
  | read
  | write
  | fetch
deriving DecidableEq, Repr

/-- The access descriptor `acc` (00_scope.md §5): `stack` chooses #SS or #GP (R86); `kind` and `user` feed PermCheck
only (R90). -/
structure Acc where
  kind  : AccKind
  stack : Bool
  user  : Bool
deriving DecidableEq, Repr

/-- The effective attributes of a walk, `Attr` of R90. -/
structure Attr where
  writable : Bool
  user     : Bool
  noexec   : Bool
deriving DecidableEq, Repr

/-- `PermCheck`, the open parameter of R90, as plain data: its two named instantiations, and any other function given by the
pairs it denies (there are 12 descriptors and 8 attribute values, so a list reaches every function). Log 8. -/
inductive PermCheck where
  /-- "`PermCheck = allow` errs toward proving" (R90). -/
  | allow
  /-- "the strictest common reading" (R90). -/
  | strict
  /-- denies exactly the listed pairs. -/
  | denies (pairs : List (Acc × Attr))
deriving DecidableEq, Repr

/-- The parameters of 00_scope.md §4. `paExtra` holds PABITS - 32, so that 32 <= PABITS <= 52 (R3) holds of every value. -/
structure Config where
  /-- VABITS (R2); the mechanism has a meaning for 48 only (R61). -/
  vaBits    : Nat
  /-- PABITS - 32 (R3). -/
  paExtra   : Fin 21
  /-- PAGE1GB (R4). -/
  page1gb   : Bool
  /-- PermCheck (R90). -/
  permCheck : PermCheck
deriving DecidableEq, Repr

/-- PABITS (R3). -/
def Config.paBits (c : Config) : Nat := 32 + c.paExtra.val

end Sys2Proof
end

