-- ==== Sys2Proof/Syntax.lean ====
section
/-! DEFINITION. The eleven 64-bit formats of spec/opcode_table.json (30_encoding.md, R40 to R52; R81), one constructor of
`Instr` each (log 1). A format's fixed bits have no field; every other bit has one, under the table's name for it. -/

namespace Sys2Proof

/-- VA.4K, R40. -/
structure Va4K where
  signExt   : BitVec 16
  pml4Index : BitVec 9
  pdpIndex  : BitVec 9
  pdIndex   : BitVec 9
  ptIndex   : BitVec 9
  offset    : BitVec 12
deriving DecidableEq, Repr

/-- VA.2M, R41. -/
structure Va2M where
  signExt   : BitVec 16
  pml4Index : BitVec 9
  pdpIndex  : BitVec 9
  pdIndex   : BitVec 9
  offset    : BitVec 21
deriving DecidableEq, Repr

/-- VA.1G, R42. -/
structure Va1G where
  signExt   : BitVec 16
  pml4Index : BitVec 9
  pdpIndex  : BitVec 9
  offset    : BitVec 30
deriving DecidableEq, Repr

/-- CR3.LM, R8, R10, R11; bits 63:52, 11:5 and 2:0 are reserved (R12). -/
structure Cr3Lm where
  base : BitVec 40
  pcd  : Bool
  pwt  : Bool
deriving DecidableEq, Repr

/-- PML4E with P = 1, R47. -/
structure Pml4e where
  nx    : Bool
  avail : BitVec 11
  base  : BitVec 40
  avl   : BitVec 3
  ign6  : Bool
  a     : Bool
  pcd   : Bool
  pwt   : Bool
  us    : Bool
  rw    : Bool
deriving DecidableEq, Repr

/-- PDPE with PS = 0 and P = 1, R48. -/
structure PdpePd where
  nx    : Bool
  avail : BitVec 11
  base  : BitVec 40
  avl   : BitVec 3
  ign8  : Bool
  ign6  : Bool
  a     : Bool
  pcd   : Bool
  pwt   : Bool
  us    : Bool
  rw    : Bool
deriving DecidableEq, Repr

/-- PDPE with PS = 1 and P = 1, R52. -/
structure Pdpe1G where
  nx    : Bool
  avail : BitVec 11
  base  : BitVec 22
  pat   : Bool
  avl   : BitVec 3
  g     : Bool
  d     : Bool
  a     : Bool
  pcd   : Bool
  pwt   : Bool
  us    : Bool
  rw    : Bool
deriving DecidableEq, Repr

/-- PDE with PS = 0 and P = 1, R49. -/
structure PdePt where
  nx    : Bool
  avail : BitVec 11
  base  : BitVec 40
  avl   : BitVec 3
  ign8  : Bool
  ign6  : Bool
  a     : Bool
  pcd   : Bool
  pwt   : Bool
  us    : Bool
  rw    : Bool
deriving DecidableEq, Repr

/-- PDE with PS = 1 and P = 1, R51. -/
structure Pde2M where
  nx    : Bool
  avail : BitVec 11
  base  : BitVec 31
  pat   : Bool
  avl   : BitVec 3
  g     : Bool
  d     : Bool
  a     : Bool
  pcd   : Bool
  pwt   : Bool
  us    : Bool
  rw    : Bool
deriving DecidableEq, Repr

/-- PTE with P = 1, R50. -/
structure Pte where
  nx    : Bool
  avail : BitVec 11
  base  : BitVec 40
  avl   : BitVec 3
  g     : Bool
  pat   : Bool
  d     : Bool
  a     : Bool
  pcd   : Bool
  pwt   : Bool
  us    : Bool
  rw    : Bool
deriving DecidableEq, Repr

/-- PDE.2M.LEGACY, the title's figure, R81: PS = 1 and P = 1, bits 62:52 and 20:13 zero. -/
structure Pde2MLegacy where
  nx   : Bool
  base : BitVec 31
  pat  : Bool
  avl  : BitVec 3
  g    : Bool
  d    : Bool
  a    : Bool
  pcd  : Bool
  pwt  : Bool
  us   : Bool
  rw   : Bool
deriving DecidableEq, Repr

/-- One constructor for each row of spec/opcode_table.json (R56: formats stand in place of instructions). -/
inductive Instr where
  | va4K (f : Va4K)
  | va2M (f : Va2M)
  | va1G (f : Va1G)
  | cr3Lm (f : Cr3Lm)
  | pml4e (f : Pml4e)
  | pdpePd (f : PdpePd)
  | pdpe1G (f : Pdpe1G)
  | pdePt (f : PdePt)
  | pde2M (f : Pde2M)
  | pte (f : Pte)
  | pde2MLegacy (f : Pde2MLegacy)
deriving DecidableEq, Repr

/-- What a word is read as: the register or table the walker takes it from. A word alone does not say which format it has
(R43 for the virtual address; the entry rows of 30_encoding.md §7 overlap too). -/
inductive Slot where
  | va4K
  | va2M
  | va1G
  | cr3
  | pml4
  | pdp
  | pd
  | pt
  | legacyPd
deriving DecidableEq, Repr

/-- The slot a format belongs to. -/
def Instr.slot : Instr → Slot
  | .va4K _ => .va4K
  | .va2M _ => .va2M
  | .va1G _ => .va1G
  | .cr3Lm _ => .cr3
  | .pml4e _ => .pml4
  | .pdpePd _ => .pdp
  | .pdpe1G _ => .pdp
  | .pdePt _ => .pd
  | .pde2M _ => .pd
  | .pte _ => .pt
  | .pde2MLegacy _ => .legacyPd

end Sys2Proof
end

