-- ==== Sys2Proof/Machine/State.lean ====
section
/-! DEFINITION. The state of the mechanism (10_state.md, 70_reset_and_hazards.md), the reasons a step stops, and the state
after reset. Plain data throughout. -/

namespace Sys2Proof.Machine

/-- Physical memory: (address, byte) pairs, addresses strictly rising, no entry equal to what an unlisted address reads as
(`Memory.wf` of Machine/Ops.lean). R17. -/
abbrev Memory := List Host.Cell

/-- The four levels of the hierarchy, in its order (R24). -/
inductive Level where
  | pml4
  | pdp
  | pd
  | pt
deriving DecidableEq, Repr

/-- What a reference asks for (R107): the physical address of its byte (R60), its bytes (R36), or the storing of bytes;
byte `k` of `bytes` is `v[8k+7:8k]` of R36's `v`. -/
inductive RefKind where
  | translate
  | read (n : Nat)
  | write (bytes : List Byte)
deriving DecidableEq, Repr

/-- A virtual-memory reference: `Translate(va, acc)`, `MemRead(va, n, acc)` or `MemWrite(va, n, v, acc)`. -/
structure Reference where
  va   : VAddr
  acc  : Acc
  kind : RefKind
deriving DecidableEq, Repr

/-- What comes next in the walk for one byte: the CR3 word (R61, R62); the entry of a table at `base` (R62 to R65); or the
ending, once the page size is known and the final entry has given the page's base bits (R65, R70, R75). -/
inductive Stage where
  | root
  | table (level : Level) (base : PAddr)
  | leaf4K (base : BitVec 40)
  | leaf2M (base : BitVec 31)
  | leaf1G (base : BitVec 22)
deriving DecidableEq, Repr

/-- A walk in progress: the reference, the physical addresses of its bytes already translated (byte 0 first; its length is
the number of the byte now translated, R36, R91), the stage, and the effective attributes of the entries read for this byte
(R90). -/
structure Walk where
  ref   : Reference
  done  : List PAddr
  stage : Stage
  attr  : Attr
deriving DecidableEq, Repr

/-- Where the mechanism stands between steps: waiting for a request; walking; or with every byte translated, about to read,
store or answer (R36: "all translations are done before any store"). -/
inductive Phase where
  | idle
  | walking (w : Walk)
  | finishing (ref : Reference) (pas : List PAddr)
deriving DecidableEq, Repr

/-- What the requester can ask for: a reference or `ActivateLongMode` (R107); the writes of the boot list, CR3 and CR4.PAE
(R101, R102, log 24); PhysRead and PhysWrite (R30, log 25). -/
inductive Request where
  | reference (r : Reference)
  | activateLongMode
  | enablePae
  | writeCr3 (v : Word)
  | physRead (pa : PAddr) (n : Nat)
  | physWrite (pa : PAddr) (bytes : List Byte)
deriving DecidableEq, Repr

/-- What the requester gets back. Bytes stand lowest address first (R31, R36). -/
inductive Response where
  | translated (pa : PAddr)
  | bytesRead (bytes : List Byte)
  | bytesWritten
  | activated
  | paeEnabled
  | cr3Written
deriving DecidableEq, Repr

/-- The exceptions (R87), each with its name, cause and what R88 says it carries. Every one is a terminal outcome (R93) and
SAFE: the mechanism stops and nothing is claimed after it (D19). -/
inductive Fault where
  /-- #GP, long mode activated with CR4.PAE = 0 (R85). Raised by the request `activateLongMode`. Safe. -/
  | gpActivation
  /-- #GP, non-canonical reference that is no stack reference (R86). `va` is the reference's address. Raised when a reference
  is taken, by CR3.LM and by a VA row. Safe. -/
  | gpNonCanonical (va : VAddr) (acc : Acc)
  /-- #SS, non-canonical stack reference (R86). Raised where gpNonCanonical is. Safe. -/
  | ssNonCanonical (va : VAddr) (acc : Acc)
  /-- PageFault, an entry with P = 0 at the level (R66, R89). `va` is the byte's address. Raised when the entry is read. Safe. -/
  | pageNotPresent (va : VAddr) (acc : Acc) (level : Level)
  /-- PageFault, PermCheck denies (R89, R90); the level is the final entry's. Raised by the VA rows. Safe. -/
  | pageDenied (va : VAddr) (acc : Acc) (level : Level)
deriving DecidableEq, Repr

/-- The inputs the spec gives no meaning (00_scope.md §5, `refuse`). Every one is SAFE: the model stops where the hardware may
go on. -/
inductive Refusal where
  /-- no meaning written for the row. Raised by no arm of exec at present. Safe. -/
  | notModelled (mnemonic : String)
  /-- LongMode = 0 or CR4.PAE = 0 (R5, R61). Raised by a reference and by CR3.LM. Safe. -/
  | notLongMode
  /-- VABITS is not 48 (R2, R61). Raised by a reference and by CR3.LM. Safe. -/
  | vaBitsUnsupported
  /-- a reserved bit of CR3 is set (R12, R61, R103). Raised by a reference, by the CR3 word and by writeCr3. Safe. -/
  | cr3Reserved
  /-- CR3[51:PABITS] is not 0 (R9, R61, R103). Raised by a reference, CR3.LM and writeCr3. Safe. -/
  | cr3BeyondPabits
  /-- va + n - 1 >= 2^64 (R35). Raised by a reference. Safe. -/
  | wraps
  /-- a present entry with a reserved bit set (R54, R66, R76). Raised when an entry is read and by PDPE.1G. Safe. -/
  | reservedBit (level : Level)
  /-- an entry with a base bit at or above PABITS (R21, R66). Raised by the entry rows. Safe. -/
  | baseBeyondPabits (level : Level)
  /-- a physical address at or above 2^PABITS (R21, R30, R65, R70, R75). Raised by an entry read, the VA rows, physRead and
  physWrite. Safe. -/
  | addressBeyondPabits
  /-- ActivateLongMode with LongMode already 1 (R85, D18). Raised by activateLongMode. Safe. -/
  | alreadyActive
  /-- a store changes a byte of an entry that a walk of the run has read, or a walk reads an entry with a byte that a store of
  the run has changed (R39, R104). Raised by stores and entry reads. Safe. -/
  | tableChanged
  /-- CR3, CR4.PAE or LongMode would change after the first Translate (R104). Raised by the requests that write them. Safe. -/
  | controlChanged
  /-- a legacy-mode entry outside long mode: "The model does not execute legacy-mode translation" (R84). Raised by
  PDE.2M.LEGACY. Safe. -/
  | legacyMode
  /-- the walker does not await a word of this format (log 29). Raised by every row; no step of a run raises it. Safe. -/
  | notAwaited
deriving DecidableEq, Repr

/-- The state. The first six fields are the spec's own (10_state.md §1 and the launch parameters of R100); the others are the
run's bookkeeping that R36, R60, R68, R104 and R107 speak of. -/
structure State where
  /-- VABITS, PABITS, PAGE1GB, PermCheck (R2 to R4, R90). -/
  cfg         : Config
  /-- CR3 (R7). -/
  cr3         : Word
  /-- CR4.PAE (R14). -/
  cr4Pae      : Bool
  /-- CR4.PSE, ignored in long mode (R15). -/
  cr4Pse      : Bool
  /-- long mode has been activated (R16). -/
  longMode    : Bool
  /-- PhysMem (R17). -/
  mem         : Memory
  /-- requests not yet taken, the next one first (R107). -/
  requests    : List Request
  /-- answers given, the oldest first. -/
  results     : List Response
  /-- the transfer in progress. -/
  phase       : Phase
  /-- the run has begun its first Translate (R104). -/
  started     : Bool
  /-- the physical addresses of the entries the run's walks have read, the oldest first (R68, R104). -/
  entriesRead : List PAddr
  /-- the physical addresses of the bytes the run's stores have changed, the oldest first (R104). -/
  changed     : List PAddr
deriving DecidableEq, Repr

/-- The state after reset. The spec gives no reset value (R19, R100): CR3, CR4.PAE, CR4.PSE and LongMode are the family's
(PRESUMED, GK17, log 9); PABITS, PAGE1GB and PermCheck are DESIGN CHOICES (logs 6, 7, 8); no run has begun (log 11). -/
def State.reset : State where
  cfg         := { vaBits := 48, paExtra := 20, page1gb := true, permCheck := .strict }
  cr3         := 0#64
  cr4Pae      := false
  cr4Pse      := false
  longMode    := false
  mem         := []
  requests    := []
  results     := []
  phase       := .idle
  started     := false
  entriesRead := []
  changed     := []

end Sys2Proof.Machine
end

