-- ==== Sys2Proof/Machine/Flags.lean ====
section
/-! DEFINITION. The hardware has no status flags (00_scope.md §3.2). What its entries' control bits compute is the effective
attributes of a walk and the permission check on them (R53, R90). -/

namespace Sys2Proof.Machine

/-- Attr of no entry: the unit of `Attr.meet`. -/
def noEntries : Attr := { writable := true, user := true, noexec := false }

/-- One more entry's R/W, U/S and NX: R/W and U/S hold when set at all levels, NX when set at any (R90). -/
def meet (t : Attr) (rw us nx : Bool) : Attr where
  writable := t.writable && rw
  user     := t.user && us
  noexec   := t.noexec || nx

/-- `Attr(e_1, ..., e_k)` of R90, over the entries as words: bit 1, bit 2, bit 63. -/
def attrOf (entries : List Word) : Attr where
  writable := entries.all fun e => e.getLsbD 1
  user     := entries.all fun e => e.getLsbD 2
  noexec   := entries.any fun e => e.getLsbD 63

/-- R90's strictest common reading: "deny unless (acc.kind = write -> writable) and (acc.user -> user) and
(acc.kind = fetch -> not noexec)". -/
def strictAllows (acc : Acc) (t : Attr) : Bool :=
  (acc.kind != .write || t.writable) && (!acc.user || t.user) && (acc.kind != .fetch || !t.noexec)

/-- PermCheck(acc, attr): true is allow (R90). -/
def permits (p : PermCheck) (acc : Acc) (t : Attr) : Bool :=
  match p with
  | .allow => true
  | .strict => strictAllows acc t
  | .denies pairs => !pairs.contains (acc, t)

end Sys2Proof.Machine
end

