-- ==== Sys2Proof/WellFormed.lean ====
section
/-! DEFINITION. Which terms of `Instr` are values the spec calls legal. For the entry rows and CR3.LM every field value is
legal; for the three VA rows "legality is Canonical(va)" (opcode_table.json, R22, R40 to R42). -/

namespace Sys2Proof

/-- "Bits 63:48 are a sign extension of bit 47" (R40 to R42); bit 47 is bit 8 of the PML4 index. -/
def signExtOk (signExt : BitVec 16) (pml4Index : BitVec 9) : Bool :=
  signExt == (BitVec.ofBool (pml4Index.getLsbD 8)).signExtend 16

/-- Legal values (30_encoding.md §5). -/
def Instr.wf : Instr → Bool
  | .va4K f => signExtOk f.signExt f.pml4Index
  | .va2M f => signExtOk f.signExt f.pml4Index
  | .va1G f => signExtOk f.signExt f.pml4Index
  | .cr3Lm _ => true
  | .pml4e _ => true
  | .pdpePd _ => true
  | .pdpe1G _ => true
  | .pdePt _ => true
  | .pde2M _ => true
  | .pte _ => true
  | .pde2MLegacy _ => true

end Sys2Proof
end

