-- ==== Sys2Proof/Decode.lean ====
section
/-! DEFINITION. Reading a 64-bit word as one of the eleven formats (30_encoding.md, 43_legacy_pae_2m_pde.md), total on any
bytes and rejecting by name; then the encoder, written from the same format tables; then the host's bare-word reading. -/

namespace Sys2Proof

/-- Why a word is no legal value of its slot. -/
inductive Reject where
  /-- not eight bytes. -/
  | wrongLength
  /-- a virtual address whose bits 63:47 are not all equal (R22). -/
  | nonCanonical
  /-- a CR3 value with one of bits 63:52, 11:5, 2:0 set (R12). -/
  | reservedCr3
  /-- an entry with P = 0, which "fits no row" (30_encoding.md §7). -/
  | notPresent
  /-- a present entry with a must-be-zero bit set (R54). -/
  | mustBeZero
  /-- a legacy-mode PDE with PS = 0, whose format the spec does not have (R84). -/
  | noFormat
deriving DecidableEq, Repr

/-! ### Fields of a word -/

/-- R40. -/
def Va4K.ofWord (w : Word) : Va4K where
  signExt   := w.extractLsb' 48 16
  pml4Index := w.extractLsb' 39 9
  pdpIndex  := w.extractLsb' 30 9
  pdIndex   := w.extractLsb' 21 9
  ptIndex   := w.extractLsb' 12 9
  offset    := w.extractLsb' 0 12

/-- R41. -/
def Va2M.ofWord (w : Word) : Va2M where
  signExt   := w.extractLsb' 48 16
  pml4Index := w.extractLsb' 39 9
  pdpIndex  := w.extractLsb' 30 9
  pdIndex   := w.extractLsb' 21 9
  offset    := w.extractLsb' 0 21

/-- R42. -/
def Va1G.ofWord (w : Word) : Va1G where
  signExt   := w.extractLsb' 48 16
  pml4Index := w.extractLsb' 39 9
  pdpIndex  := w.extractLsb' 30 9
  offset    := w.extractLsb' 0 30

/-- R8, R10, R11. -/
def Cr3Lm.ofWord (w : Word) : Cr3Lm where
  base := w.extractLsb' 12 40
  pcd  := w.getLsbD 4
  pwt  := w.getLsbD 3

/-- R47. -/
def Pml4e.ofWord (w : Word) : Pml4e where
  nx    := w.getLsbD 63
  avail := w.extractLsb' 52 11
  base  := w.extractLsb' 12 40
  avl   := w.extractLsb' 9 3
  ign6  := w.getLsbD 6
  a     := w.getLsbD 5
  pcd   := w.getLsbD 4
  pwt   := w.getLsbD 3
  us    := w.getLsbD 2
  rw    := w.getLsbD 1

/-- R48. -/
def PdpePd.ofWord (w : Word) : PdpePd where
  nx    := w.getLsbD 63
  avail := w.extractLsb' 52 11
  base  := w.extractLsb' 12 40
  avl   := w.extractLsb' 9 3
  ign8  := w.getLsbD 8
  ign6  := w.getLsbD 6
  a     := w.getLsbD 5
  pcd   := w.getLsbD 4
  pwt   := w.getLsbD 3
  us    := w.getLsbD 2
  rw    := w.getLsbD 1

/-- R52. -/
def Pdpe1G.ofWord (w : Word) : Pdpe1G where
  nx    := w.getLsbD 63
  avail := w.extractLsb' 52 11
  base  := w.extractLsb' 30 22
  pat   := w.getLsbD 12
  avl   := w.extractLsb' 9 3
  g     := w.getLsbD 8
  d     := w.getLsbD 6
  a     := w.getLsbD 5
  pcd   := w.getLsbD 4
  pwt   := w.getLsbD 3
  us    := w.getLsbD 2
  rw    := w.getLsbD 1

/-- R49. -/
def PdePt.ofWord (w : Word) : PdePt where
  nx    := w.getLsbD 63
  avail := w.extractLsb' 52 11
  base  := w.extractLsb' 12 40
  avl   := w.extractLsb' 9 3
  ign8  := w.getLsbD 8
  ign6  := w.getLsbD 6
  a     := w.getLsbD 5
  pcd   := w.getLsbD 4
  pwt   := w.getLsbD 3
  us    := w.getLsbD 2
  rw    := w.getLsbD 1

/-- R51. -/
def Pde2M.ofWord (w : Word) : Pde2M where
  nx    := w.getLsbD 63
  avail := w.extractLsb' 52 11
  base  := w.extractLsb' 21 31
  pat   := w.getLsbD 12
  avl   := w.extractLsb' 9 3
  g     := w.getLsbD 8
  d     := w.getLsbD 6
  a     := w.getLsbD 5
  pcd   := w.getLsbD 4
  pwt   := w.getLsbD 3
  us    := w.getLsbD 2
  rw    := w.getLsbD 1

/-- R50. -/
def Pte.ofWord (w : Word) : Pte where
  nx    := w.getLsbD 63
  avail := w.extractLsb' 52 11
  base  := w.extractLsb' 12 40
  avl   := w.extractLsb' 9 3
  g     := w.getLsbD 8
  pat   := w.getLsbD 7
  d     := w.getLsbD 6
  a     := w.getLsbD 5
  pcd   := w.getLsbD 4
  pwt   := w.getLsbD 3
  us    := w.getLsbD 2
  rw    := w.getLsbD 1

/-- R81. -/
def Pde2MLegacy.ofWord (w : Word) : Pde2MLegacy where
  nx   := w.getLsbD 63
  base := w.extractLsb' 21 31
  pat  := w.getLsbD 12
  avl  := w.extractLsb' 9 3
  g    := w.getLsbD 8
  d    := w.getLsbD 6
  a    := w.getLsbD 5
  pcd  := w.getLsbD 4
  pwt  := w.getLsbD 3
  us   := w.getLsbD 2
  rw   := w.getLsbD 1

/-! ### Decoding -/

/-- Canonical form for the 48-bit layout of R40 to R42: bits 63:47, seventeen bits, are all equal (R22). -/
def canonical48 (w : Word) : Bool :=
  w.extractLsb' 47 17 == 0#17 || w.extractLsb' 47 17 == BitVec.allOnes 17

/-- The reserved bits of CR3 are all zero: 63:52, 11:5 and 2:0 (R12). -/
def cr3ReservedClear (w : Word) : Bool :=
  w.extractLsb' 52 12 == 0#12 && w.extractLsb' 5 7 == 0#7 && w.extractLsb' 0 3 == 0#3

/-- A word in a slot, as its format; or the reason it has none. Bit 0 is P, tested first (R66); bit 7 is PS in a PDPE (R45)
and a PDE (R44); the must-be-zero bits are those of R54. Log 13. -/
def decodeWord (slot : Slot) (w : Word) : Except Reject Instr :=
  match slot with
  | .va4K => if canonical48 w then .ok (.va4K (Va4K.ofWord w)) else .error .nonCanonical
  | .va2M => if canonical48 w then .ok (.va2M (Va2M.ofWord w)) else .error .nonCanonical
  | .va1G => if canonical48 w then .ok (.va1G (Va1G.ofWord w)) else .error .nonCanonical
  | .cr3 => if cr3ReservedClear w then .ok (.cr3Lm (Cr3Lm.ofWord w)) else .error .reservedCr3
  | .pml4 =>
    if w.getLsbD 0 = false then .error .notPresent
    else if w.extractLsb' 7 2 ≠ 0#2 then .error .mustBeZero
    else .ok (.pml4e (Pml4e.ofWord w))
  | .pdp =>
    if w.getLsbD 0 = false then .error .notPresent
    else if w.getLsbD 7 = false then .ok (.pdpePd (PdpePd.ofWord w))
    else if w.extractLsb' 13 17 ≠ 0#17 then .error .mustBeZero
    else .ok (.pdpe1G (Pdpe1G.ofWord w))
  | .pd =>
    if w.getLsbD 0 = false then .error .notPresent
    else if w.getLsbD 7 = false then .ok (.pdePt (PdePt.ofWord w))
    else if w.extractLsb' 13 8 ≠ 0#8 then .error .mustBeZero
    else .ok (.pde2M (Pde2M.ofWord w))
  | .pt =>
    if w.getLsbD 0 = false then .error .notPresent
    else .ok (.pte (Pte.ofWord w))
  | .legacyPd =>
    if w.getLsbD 0 = false then .error .notPresent
    else if w.getLsbD 7 = false then .error .noFormat
    else if w.extractLsb' 52 11 ≠ 0#11 ∨ w.extractLsb' 13 8 ≠ 0#8 then .error .mustBeZero
    else .ok (.pde2MLegacy (Pde2MLegacy.ofWord w))

/-- The eight bytes of a word in memory, lowest address first (R31). -/
def wordBytes (w : Word) : List Byte :=
  [w.extractLsb' 0 8, w.extractLsb' 8 8, w.extractLsb' 16 8, w.extractLsb' 24 8,
   w.extractLsb' 32 8, w.extractLsb' 40 8, w.extractLsb' 48 8, w.extractLsb' 56 8]

/-- Decoding any bytes in a slot: eight bytes, little-endian (R31), are one word. -/
def decode (slot : Slot) (bytes : List Byte) : Except Reject Instr :=
  match bytes with
  | [b0, b1, b2, b3, b4, b5, b6, b7] => decodeWord slot (b7 ++ b6 ++ b5 ++ b4 ++ b3 ++ b2 ++ b1 ++ b0)
  | _ => .error .wrongLength

/-! ### Encoding -/

/-- One bit. -/
abbrev bit (b : Bool) : BitVec 1 := BitVec.ofBool b

/-- The word of a format's fields, from bit 63 down, as the format tables list them (R40 to R42, R8, R47 to R52, R81). -/
def encode : Instr → Word
  | .va4K f => f.signExt ++ f.pml4Index ++ f.pdpIndex ++ f.pdIndex ++ f.ptIndex ++ f.offset
  | .va2M f => f.signExt ++ f.pml4Index ++ f.pdpIndex ++ f.pdIndex ++ f.offset
  | .va1G f => f.signExt ++ f.pml4Index ++ f.pdpIndex ++ f.offset
  | .cr3Lm f => 0#12 ++ f.base ++ 0#7 ++ bit f.pcd ++ bit f.pwt ++ 0#3
  | .pml4e f =>
    bit f.nx ++ f.avail ++ f.base ++ f.avl ++ 0#2 ++ bit f.ign6 ++ bit f.a ++ bit f.pcd ++ bit f.pwt ++ bit f.us
      ++ bit f.rw ++ 1#1
  | .pdpePd f =>
    bit f.nx ++ f.avail ++ f.base ++ f.avl ++ bit f.ign8 ++ 0#1 ++ bit f.ign6 ++ bit f.a ++ bit f.pcd ++ bit f.pwt
      ++ bit f.us ++ bit f.rw ++ 1#1
  | .pdpe1G f =>
    bit f.nx ++ f.avail ++ f.base ++ 0#17 ++ bit f.pat ++ f.avl ++ bit f.g ++ 1#1 ++ bit f.d ++ bit f.a ++ bit f.pcd
      ++ bit f.pwt ++ bit f.us ++ bit f.rw ++ 1#1
  | .pdePt f =>
    bit f.nx ++ f.avail ++ f.base ++ f.avl ++ bit f.ign8 ++ 0#1 ++ bit f.ign6 ++ bit f.a ++ bit f.pcd ++ bit f.pwt
      ++ bit f.us ++ bit f.rw ++ 1#1
  | .pde2M f =>
    bit f.nx ++ f.avail ++ f.base ++ 0#8 ++ bit f.pat ++ f.avl ++ bit f.g ++ 1#1 ++ bit f.d ++ bit f.a ++ bit f.pcd
      ++ bit f.pwt ++ bit f.us ++ bit f.rw ++ 1#1
  | .pte f =>
    bit f.nx ++ f.avail ++ f.base ++ f.avl ++ bit f.g ++ bit f.pat ++ bit f.d ++ bit f.a ++ bit f.pcd ++ bit f.pwt
      ++ bit f.us ++ bit f.rw ++ 1#1
  | .pde2MLegacy f =>
    bit f.nx ++ 0#11 ++ f.base ++ 0#8 ++ bit f.pat ++ f.avl ++ bit f.g ++ 1#1 ++ bit f.d ++ bit f.a ++ bit f.pcd
      ++ bit f.pwt ++ bit f.us ++ bit f.rw ++ 1#1

/-! ### The table of 30_encoding.md §7 -/

/-- `mask` of a format's row: its fixed bits. -/
def Instr.fixedMask : Instr → Word
  | .va4K _ => 0x0000000000000000#64
  | .va2M _ => 0x0000000000000000#64
  | .va1G _ => 0x0000000000000000#64
  | .cr3Lm _ => 0xFFF0000000000FE7#64
  | .pml4e _ => 0x0000000000000181#64
  | .pdpePd _ => 0x0000000000000081#64
  | .pdpe1G _ => 0x000000003FFFE081#64
  | .pdePt _ => 0x0000000000000081#64
  | .pde2M _ => 0x00000000001FE081#64
  | .pte _ => 0x0000000000000001#64
  | .pde2MLegacy _ => 0x7FF00000001FE081#64

/-- `match` of a format's row: the value of its fixed bits. -/
def Instr.fixedBits : Instr → Word
  | .va4K _ => 0x0000000000000000#64
  | .va2M _ => 0x0000000000000000#64
  | .va1G _ => 0x0000000000000000#64
  | .cr3Lm _ => 0x0000000000000000#64
  | .pml4e _ => 0x0000000000000001#64
  | .pdpePd _ => 0x0000000000000001#64
  | .pdpe1G _ => 0x0000000000000081#64
  | .pdePt _ => 0x0000000000000001#64
  | .pde2M _ => 0x0000000000000081#64
  | .pte _ => 0x0000000000000001#64
  | .pde2MLegacy _ => 0x0000000000000081#64

/-! ### A word with no slot -/

/-- The slot in which a bare word is read. A bare word may fit several rows; it is read as the row with the most fixed bits
that it fits (22 for CR3.LM, 21 for PDE.2M.LEGACY, 19 for PDPE.1G, 10 for PDE.2M, 3 for PML4E, 2 for PDPE.PD, 1 for PTE, none
for VA.4K). PDE.PT has the fixed bits of PDPE.PD, and VA.2M and VA.1G those of VA.4K (R43): no bare word is read as these.
DESIGN CHOICE, log 4. -/
def bareSlot (w : Word) : Slot :=
  if w &&& 0xFFF0000000000FE7#64 = 0#64 then .cr3
  else if w &&& 0x7FF00000001FE081#64 = 0x81#64 then .legacyPd
  else if w &&& 0x3FFFE081#64 = 0x81#64 then .pdp
  else if w &&& 0x1FE081#64 = 0x81#64 then .pd
  else if w &&& 0x181#64 = 1#64 then .pml4
  else if w &&& 0x81#64 = 1#64 then .pdp
  else if w &&& 1#64 = 1#64 then .pt
  else .va4K

/-- What the decoder reads from a bare word of `nbits` bits (the bits above are zero): the word's eight bytes, lowest address
first, decoded in the slot of `bareSlot`. -/
def decodeTableWord (nbits w : Nat) : Option Instr :=
  if nbits ≤ 64 ∧ w < 2 ^ nbits then
    match decode (bareSlot (BitVec.ofNat 64 w)) (wordBytes (BitVec.ofNat 64 w)) with
    | .ok i => some i
    | .error _ => none
  else none

end Sys2Proof
end

