-- ==== Sys2Proof/Machine/Operands.lean ====
section
/-! DEFINITION. The operand forms of the walk: index fields, entry addresses, and physical addresses assembled from a base
field and an offset (30_encoding.md, R28, R56, R67). Every one is a concatenation of disjoint fields. -/

namespace Sys2Proof.Machine

/-- The table index of a level: va[47:39], va[38:30], va[29:21], va[20:12] (R40). -/
def tableIndex (l : Level) (va : VAddr) : BitVec 9 :=
  match l with
  | .pml4 => va.extractLsb' 39 9
  | .pdp => va.extractLsb' 30 9
  | .pd => va.extractLsb' 21 9
  | .pt => va.extractLsb' 12 9

/-- `PML4Base <- CR3[51:12] ‖ 0^12` (R8, R62). -/
def pml4Base (cr3 : Word) : PAddr := cr3.extractLsb' 12 40 ++ 0#12

/-- The base of the next table: bits 51:12 of an entry, the low 12 bits 0 (R29, R46, R63 to R65). -/
def tableBase (e : Word) : PAddr := e.extractLsb' 12 40 ++ 0#12

/-- `EntryAddr(B, i) <- B[51:12] ‖ i ‖ 0^3` (R28). -/
def entryAddr (base : PAddr) (i : BitVec 9) : PAddr := base.extractLsb' 12 40 ++ i ++ 0#3

/-- The 4-Kbyte ending: `pte[51:12] ‖ va[11:0]`, 40 and 12 bits (R65). -/
def pageAddr4K (base : BitVec 40) (offset : BitVec 12) : PAddr := base ++ offset

/-- The 2-Mbyte ending: `pde[51:21] ‖ va[20:0]`, 31 and 21 bits (R70). -/
def pageAddr2M (base : BitVec 31) (offset : BitVec 21) : PAddr := base ++ offset

/-- The 1-Gbyte ending: `pdpe[51:30] ‖ va[29:0]`, 22 and 30 bits (R75). -/
def pageAddr1G (base : BitVec 22) (offset : BitVec 30) : PAddr := base ++ offset

/-- The number of byte addresses of a reference; a Translate has one (R35, R60). -/
def Reference.size (r : Reference) : Nat :=
  match r.kind with
  | .translate => 1
  | .read n => n
  | .write bytes => bytes.length

/-- The address of byte `k`: `va + k` (R35; without wrap, which `Reference.wraps` refuses). -/
def Reference.byteVa (r : Reference) (k : Nat) : VAddr := r.va + BitVec.ofNat 64 k

/-- `va + n - 1 >= 2^64` (R35). -/
def Reference.wraps (r : Reference) : Bool := decide (2 ^ 64 ≤ r.va.toNat + r.size - 1)

/-- The address of the byte a walk is translating. -/
def Walk.va (w : Walk) : VAddr := w.ref.byteVa w.done.length

/-- The bytes of a value of `8n` bits, byte `k` being `v[8k+7:8k]` (R36). -/
def splitLE (n : Nat) (v : BitVec (8 * n)) : List Byte := (List.range n).map fun k => v.extractLsb' (8 * k) 8

/-- The value of bytes read from increasing addresses: `PhysMem[pa_(n-1)] ‖ ... ‖ PhysMem[pa_0]` (R30, R31, R36). -/
def joinLE : (bytes : List Byte) → Nat
  | [] => 0
  | b :: bytes => b.toNat + 256 * joinLE bytes

/-- `MemWrite(va, n, v, acc)` with the value `v : bits(8n)` (R36). -/
def memWriteRequest (va : VAddr) (n : Nat) (v : BitVec (8 * n)) (acc : Acc) : Request :=
  .reference { va := va, acc := acc, kind := .write (splitLE n v) }

/-- `MemRead(va, n, acc)` (R36). -/
def memReadRequest (va : VAddr) (n : Nat) (acc : Acc) : Request :=
  .reference { va := va, acc := acc, kind := .read n }

/-- `Translate(va, acc)` (R60). -/
def translateRequest (va : VAddr) (acc : Acc) : Request :=
  .reference { va := va, acc := acc, kind := .translate }

end Sys2Proof.Machine
end

