-- ==== Sys2Proof/Machine/Ops.lean ====
section
/-! DEFINITION. The shared operations: physical memory, raising and refusing, the checks of a reference, reading an entry,
and what every entry row, every VA row and every store does. -/

namespace Sys2Proof.Machine

/-! ### Physical memory (R17) -/

/-- What an unlisted address reads as. R17 gives no contents; 95_test_vectors.md §3: "Every memory byte not listed is `0x00`".
DESIGN CHOICE, log 10. -/
def unlistedByte : Byte := 0x00#8

/-- The byte at an address. -/
def Memory.read : Memory → Nat → Byte
  | [], _ => unlistedByte
  | (a', b) :: m, a => if a' = a then b else Memory.read m a

/-- Storing one byte, keeping the canonical form. -/
def Memory.write : Memory → Nat → Byte → Memory
  | [], a, b => if b = unlistedByte then [] else [(a, b)]
  | (a', b') :: m, a, b =>
    if a' < a then (a', b') :: Memory.write m a b
    else if a' = a then (if b = unlistedByte then m else (a, b) :: m)
    else (if b = unlistedByte then (a', b') :: m else (a, b) :: (a', b') :: m)

/-- Every address is at least `lo`, addresses rise strictly, and no entry equals what an unlisted address reads as. -/
def Memory.wfFrom : Nat → Memory → Bool
  | _, [] => true
  | lo, (a, b) :: m => decide (lo ≤ a) && b != unlistedByte && Memory.wfFrom (a + 1) m

/-- The canonical form of a memory. -/
def Memory.wf (m : Memory) : Bool := Memory.wfFrom 0 m

/-- Every listed address is below `n`. -/
def Memory.within (m : Memory) (n : Nat) : Bool := m.all fun c => decide (c.1 < n)

/-- Storing bytes at increasing addresses. -/
def Memory.writeBytes : Memory → Nat → List Byte → Memory
  | m, _, [] => m
  | m, a, b :: bs => Memory.writeBytes (Memory.write m a b) (a + 1) bs

/-- `PhysRead(pa, 8) = PhysMem[pa+7] ‖ ... ‖ PhysMem[pa]` (R31; D7, log 12). -/
def word64 (m : Memory) (a : Nat) : Word :=
  m.read (a + 7) ++ m.read (a + 6) ++ m.read (a + 5) ++ m.read (a + 4) ++ m.read (a + 3) ++ m.read (a + 2)
    ++ m.read (a + 1) ++ m.read a

/-! ### Named updates of the state -/

def State.setPhase (s : State) (p : Phase) : State := { s with phase := p }
def State.setRequests (s : State) (l : List Request) : State := { s with requests := l }
def State.respond (s : State) (l : List Response) : State := { s with results := s.results ++ l }
def State.noteRead (s : State) (l : List PAddr) : State := { s with entriesRead := s.entriesRead ++ l }
def State.noteChanged (s : State) (a : PAddr) : State := { s with changed := s.changed ++ [a] }
def State.setStarted (s : State) : State := { s with started := true }
def State.setMem (s : State) (m : Memory) : State := { s with mem := m }
def State.setCr3 (s : State) (v : Word) : State := { s with cr3 := v }
def State.setCr4Pae (s : State) : State := { s with cr4Pae := true }
def State.setLongMode (s : State) : State := { s with longMode := true }

/-! ### Stopping (R93, 00_scope.md §5) -/

/-- An operation's two ways to end early. -/
inductive Stop where
  | fault (f : Fault)
  | refused (r : Refusal)
deriving DecidableEq, Repr

/-- Taking an exception: "a raised exception is a terminal outcome of the operation that raised it" (R93). The spec describes
no saved state, no handler and no return (R93, R94), so nothing is entered; log 20. -/
def raise (f : Fault) : Host.Outcome State Fault Refusal := .fault f

/-- A stop as an outcome. -/
def Stop.outcome : Stop → Host.Outcome State Fault Refusal
  | .fault f => raise f
  | .refused r => .refused r

/-- `GP_or_SS(acc)` (R86, D6). -/
def gpOrSs (va : VAddr) (acc : Acc) : Fault :=
  if acc.stack then .ssNonCanonical va acc else .gpNonCanonical va acc

/-- Go on unless `bad`. -/
def guardStop (bad : Bool) (stop : Stop) : Except Stop Unit := if bad then .error stop else .ok ()

/-! ### The checks of a reference -/

/-- `Canonical(va)` for VABITS implemented bits: va[63:VABITS-1] all zeros or all ones (R22). -/
def canonical (vaBits : Nat) (va : VAddr) : Bool :=
  va >>> (vaBits - 1) == 0#64 || va >>> (vaBits - 1) == BitVec.allOnes 64 >>> (vaBits - 1)

/-- A physical address with a bit at or above PABITS set (R21). -/
def beyondPabits (c : Config) (pa : PAddr) : Bool := decide (2 ^ c.paBits ≤ pa.toNat)

/-- The first two lines of Precondition: long mode with PAE, VABITS = 48 (R61). -/
def checkMode (s : State) : Except Stop Unit := do
  guardStop (!(s.longMode && s.cr4Pae)) (.refused .notLongMode)
  guardStop (s.cfg.vaBits != 48) (.refused .vaBitsUnsupported)

/-- The duties on a CR3 value: reserved bits clear (R12), base bits at or above PABITS clear (R9); R61, R103, D15. -/
def checkCr3 (c : Config) (v : Word) : Except Stop Unit := do
  guardStop (!cr3ReservedClear v) (.refused .cr3Reserved)
  guardStop (beyondPabits c (pml4Base v)) (.refused .cr3BeyondPabits)

/-- `Precondition()` (R61). -/
def precondition (s : State) : Except Stop Unit := do
  checkMode s
  checkCr3 s.cfg s.cr3

/-- Every byte address of a reference is canonical (R23). -/
def allCanonical (vaBits : Nat) (r : Reference) : Bool :=
  (List.range r.size).all fun k => canonical vaBits (r.byteVa k)

/-- The checks of a reference before any table is read, in the order of R36 and R91: precondition, no wrap (R35), canonical form of
all bytes (R23, D5). For a Translate they are those of R60. A reference of no byte has no address to wrap or to be non-canonical
(DESIGN CHOICE, log 22). -/
def checkReference (s : State) (r : Reference) : Except Stop Unit := do
  precondition s
  guardStop r.wraps (.refused .wraps)
  guardStop (!allCanonical s.cfg.vaBits r) (.fault (gpOrSs r.va r.acc))

/-! ### Reading an entry -/

/-- Byte `a` is one of the eight bytes of the entry at `entry`. -/
def inEntry (entry a : PAddr) : Bool := decide (entry.toNat ≤ a.toNat) && decide (a.toNat < entry.toNat + 8)

/-- `PhysRead(pa, 8)` by the walk: refused beyond PABITS (R30), and in a run whose stores have changed a byte of the entry
(R39, R104; log 17). -/
def readEntry (s : State) (pa : PAddr) : Except Stop Word := do
  guardStop (decide (2 ^ s.cfg.paBits ≤ pa.toNat + 7)) (.refused .addressBeyondPabits)
  guardStop (s.changed.any (inEntry pa)) (.refused .tableChanged)
  return word64 s.mem pa.toNat

/-- What every entry row does at its level once P and the must-be-zero bits have passed: refuse a base beyond PABITS (R66),
record the read (R68), take R/W, U/S and NX into the effective attributes (R90), go to the next stage (R62 to R65, R70, R75). -/
def useEntry (level : Level) (base : PAddr) (rw us nx : Bool) (next : Stage) (s : State) :
    Host.Outcome State Fault Refusal :=
  match s.phase with
  | .walking w =>
    match w.stage with
    | .table l b =>
      if l = level then
        if beyondPabits s.cfg base then .refused (.baseBeyondPabits level)
        else .next ((s.noteRead [entryAddr b (tableIndex l w.va)]).setPhase
          (.walking { w with attr := meet w.attr rw us nx, stage := next }))
      else .refused .notAwaited
    | _ => .refused .notAwaited
  | _ => .refused .notAwaited

/-! ### Ending the walk of one byte -/

/-- Where the walk stands after byte `pa`: the next byte's Translate, or with every byte translated the end of the reference
(R36). -/
def afterByte (w : Walk) (pa : PAddr) : Phase :=
  if w.done.length + 1 < w.ref.size then
    .walking { w with done := w.done ++ [pa], stage := .root, attr := noEntries }
  else .finishing w.ref (w.done ++ [pa])

/-- What every VA row does in its ending: PermCheck (R90), refuse beyond PABITS (R21), the byte's physical address is `pa`
(R65, R70, R75). `level` is that of the final entry. -/
def endByte (level : Level) (w : Walk) (pa : PAddr) (s : State) : Host.Outcome State Fault Refusal :=
  if permits s.cfg.permCheck w.ref.acc w.attr then
    if beyondPabits s.cfg pa then .refused .addressBeyondPabits
    else .next (s.setPhase (afterByte w pa))
  else raise (.pageDenied w.va w.ref.acc level)

/-! ### Stores -/

/-- One byte stored (R30, R36). A byte that already holds the value is no change; a change to an entry that a walk of the run
has read is refused (R104, D12). -/
def storeByte (pa : PAddr) (b : Byte) (s : State) : Except Stop State :=
  if s.mem.read pa.toNat = b then .ok s
  else if s.entriesRead.any fun e => inEntry e pa then .error (.refused .tableChanged)
  else .ok ((s.setMem (s.mem.write pa.toNat b)).noteChanged pa)

/-- Bytes stored in order (R36: "for k in 0 .. n-1"). -/
def storeBytes : List (PAddr × Byte) → State → Except Stop State
  | [], s => .ok s
  | (pa, b) :: l, s =>
    match storeByte pa b s with
    | .error e => .error e
    | .ok s' => storeBytes l s'

/-- The addresses `pa`, ..., `pa + n - 1` (R30). -/
def physRange (pa : PAddr) (n : Nat) : List PAddr := (List.range n).map fun k => pa + BitVec.ofNat 52 k

/-- PhysRead and PhysWrite "refuse if `pa + n - 1 >= 2^PABITS`" (R30); no other test, of the mode or of `n` (DESIGN CHOICES, logs
22 and 36). -/
def checkPhys (c : Config) (pa : PAddr) (n : Nat) : Except Stop Unit := do
  guardStop (decide (2 ^ c.paBits ≤ pa.toNat + n - 1)) (.refused .addressBeyondPabits)

/-- The end of a reference whose bytes have the physical addresses `pas`: answer the address (R60), read the bytes or store
them (R36). -/
def answer (r : Reference) (pas : List PAddr) (s : State) : Except Stop State :=
  match r.kind with
  | .translate => .ok (s.respond (pas.map .translated))
  | .read _ => .ok (s.respond [.bytesRead (pas.map fun pa => s.mem.read pa.toNat)])
  | .write bytes =>
    match storeBytes (pas.zip bytes) s with
    | .error e => .error e
    | .ok s' => .ok (s'.respond [.bytesWritten])

/-- A result as an outcome. -/
def outcomeOf : Except Stop State → Host.Outcome State Fault Refusal
  | .ok s => .next s
  | .error e => e.outcome

end Sys2Proof.Machine
end

