-- ==== Sys2Proof/Machine/ControlRegister.lean ====
section
/-! DEFINITION. The meaning of the CR3.LM row (R7 to R12, R61, R62). -/

namespace Sys2Proof.Machine

/-- CR3.LM: a Translate begins. Precondition (R61; the reserved bits have no field, decoding refuses them), canonical form of
the byte's address (R60), and "the CR3 register is used to point to the PML4 base address": `PML4Base <- CR3[51:12] ‖ 0^12`
(R8, R62). PCD and PWT change no value (R10, R11, R38). -/
def execCr3Lm (f : Cr3Lm) (s : State) : Host.Outcome State Fault Refusal :=
  match s.phase with
  | .walking w =>
    if w.stage = .root then
      match checkMode s with
      | .error e => e.outcome
      | .ok _ =>
        if beyondPabits s.cfg (f.base ++ 0#12) then .refused .cr3BeyondPabits
        else if canonical s.cfg.vaBits w.va then
          .next (s.setStarted.setPhase (.walking { w with stage := .table .pml4 (f.base ++ 0#12), attr := noEntries }))
        else raise (gpOrSs w.va w.ref.acc)
    else .refused .notAwaited
  | _ => .refused .notAwaited

end Sys2Proof.Machine
end

