-- ==== Sys2Proof/Machine/Legacy.lean ====
section
/-! DEFINITION. The title's figure, the legacy-mode PAE 2-Mbyte PDE (R80 to R84). "The model does not execute legacy-mode
translation" (R84): outside long mode the row is refused. In long mode the same bits are a PDE of R51 whose bits 62:52 are zero,
since the two layouts differ only there (R82), and have that PDE's effect. Log 27. R83's address arithmetic is written out for
reference; no meaning uses it. -/

namespace Sys2Proof.Machine

/-- PDE.2M.LEGACY (R82, R84). -/
def execPde2MLegacy (f : Pde2MLegacy) (s : State) : Host.Outcome State Fault Refusal :=
  if s.longMode then useEntry .pd (f.base ++ 0#21) f.rw f.us f.nx (.leaf2M f.base) s
  else .refused .legacyMode

/-- The long-mode PDE with the same bits (R82). -/
def legacyAsLongMode (f : Pde2MLegacy) : Pde2M where
  nx    := f.nx
  avail := 0#11
  base  := f.base
  pat   := f.pat
  avl   := f.avl
  g     := f.g
  d     := f.d
  a     := f.a
  pcd   := f.pcd
  pwt   := f.pwt
  us    := f.us
  rw    := f.rw

/-- R83, reference only: the 32-byte-aligned base of the 4-entry PDP table, CR3 bits 31:5. -/
def legacyPdpBase (cr3 : BitVec 32) : BitVec 32 := cr3.extractLsb' 5 27 ++ 0#5

/-- R83, reference only: bits 31:30 index the PDP table. -/
def legacyPdpIndex (va : BitVec 32) : BitVec 2 := va.extractLsb' 30 2

/-- R83, reference only: bits 29:21 index the page-directory table. -/
def legacyPdIndex (va : BitVec 32) : BitVec 9 := va.extractLsb' 21 9

/-- R83, reference only: `pde[51:21] ‖ va[20:0]`. -/
def legacyPageAddr (pde : Word) (va : BitVec 32) : PAddr := pde.extractLsb' 21 31 ++ va.extractLsb' 0 21

end Sys2Proof.Machine
end

