-- ==== Sys2Proof/Machine/TableEntry.lean ====
section
/-! DEFINITION. The meanings of the six entry rows (R47 to R52, R62 to R66, R70 to R77). A, D, G, PAT, AVL, PCD, PWT and the
ignored bits change nothing (R53, D11, D16). -/

namespace Sys2Proof.Machine

/-- PML4E (R63): the PDP table is at bits 51:12 ‖ 0^12. -/
def execPml4e (f : Pml4e) (s : State) : Host.Outcome State Fault Refusal :=
  useEntry .pml4 (f.base ++ 0#12) f.rw f.us f.nx (.table .pdp (f.base ++ 0#12)) s

/-- PDPE with PS = 0 (R64): the PD table is at bits 51:12 ‖ 0^12. -/
def execPdpePd (f : PdpePd) (s : State) : Host.Outcome State Fault Refusal :=
  useEntry .pdp (f.base ++ 0#12) f.rw f.us f.nx (.table .pd (f.base ++ 0#12)) s

/-- PDPE with PS = 1 (R75): a 1-Gbyte page at bits 51:30; a reserved bit where 1-Gbyte pages are not supported (R66, R76). No PDE
is read (R77). -/
def execPdpe1G (f : Pdpe1G) (s : State) : Host.Outcome State Fault Refusal :=
  if s.cfg.page1gb then useEntry .pdp (f.base ++ 0#30) f.rw f.us f.nx (.leaf1G f.base) s
  else .refused (.reservedBit .pdp)

/-- PDE with PS = 0 (R65): the page table is at bits 51:12 ‖ 0^12. -/
def execPdePt (f : PdePt) (s : State) : Host.Outcome State Fault Refusal :=
  useEntry .pd (f.base ++ 0#12) f.rw f.us f.nx (.table .pt (f.base ++ 0#12)) s

/-- PDE with PS = 1 (R70): a 2-Mbyte page at bits 51:21, whatever CR4.PSE holds (R73). No PTE is read (R71). -/
def execPde2M (f : Pde2M) (s : State) : Host.Outcome State Fault Refusal :=
  useEntry .pd (f.base ++ 0#21) f.rw f.us f.nx (.leaf2M f.base) s

/-- PTE (R65): a 4-Kbyte page at bits 51:12. Bit 7 is no page-size bit (R50). -/
def execPte (f : Pte) (s : State) : Host.Outcome State Fault Refusal :=
  useEntry .pt (f.base ++ 0#12) f.rw f.us f.nx (.leaf4K f.base) s

end Sys2Proof.Machine
end

