-- ==== Sys2Proof/Machine/VirtualAddress.lean ====
section
/-! DEFINITION. The meanings of the three VA rows: the endings of a Translate, `Leaf4K`, `Leaf2M` and `Leaf1G` (R65, R70, R75).
The walk has found the format (R43); the index fields have been used on the way (R62 to R65). -/

namespace Sys2Proof.Machine

/-- VA.4K: `pa <- pte[51:12] ‖ va[11:0]` (R65). -/
def execVa4K (f : Va4K) (s : State) : Host.Outcome State Fault Refusal :=
  match s.phase with
  | .walking w =>
    match w.stage with
    | .leaf4K base => endByte .pt w (pageAddr4K base f.offset) s
    | _ => .refused .notAwaited
  | _ => .refused .notAwaited

/-- VA.2M: `pa <- pde[51:21] ‖ va[20:0]` (R70). -/
def execVa2M (f : Va2M) (s : State) : Host.Outcome State Fault Refusal :=
  match s.phase with
  | .walking w =>
    match w.stage with
    | .leaf2M base => endByte .pd w (pageAddr2M base f.offset) s
    | _ => .refused .notAwaited
  | _ => .refused .notAwaited

/-- VA.1G: `pa <- pdpe[51:30] ‖ va[29:0]` (R75). -/
def execVa1G (f : Va1G) (s : State) : Host.Outcome State Fault Refusal :=
  match s.phase with
  | .walking w =>
    match w.stage with
    | .leaf1G base => endByte .pdp w (pageAddr1G base f.offset) s
    | _ => .refused .notAwaited
  | _ => .refused .notAwaited

end Sys2Proof.Machine
end

