-- ==== Sys2Proof/Machine/Dispatch.lean ====
section
/-! DEFINITION. One arm for each row of spec/opcode_table.json. -/

namespace Sys2Proof.Machine

def exec (i : Instr) (s : State) : Host.Outcome State Fault Refusal :=
  match i with
  | .va4K f => Sys2Proof.Machine.execVa4K f s
  | .va2M f => Sys2Proof.Machine.execVa2M f s
  | .va1G f => Sys2Proof.Machine.execVa1G f s
  | .cr3Lm f => Sys2Proof.Machine.execCr3Lm f s
  | .pml4e f => Sys2Proof.Machine.execPml4e f s
  | .pdpePd f => Sys2Proof.Machine.execPdpePd f s
  | .pdpe1G f => Sys2Proof.Machine.execPdpe1G f s
  | .pdePt f => Sys2Proof.Machine.execPdePt f s
  | .pde2M f => Sys2Proof.Machine.execPde2M f s
  | .pte f => Sys2Proof.Machine.execPte f s
  | .pde2MLegacy f => Sys2Proof.Machine.execPde2MLegacy f s

end Sys2Proof.Machine
end

