-- ==== Sys2Proof/Machine/Fetch.lean ====
section
/-! DEFINITION. The word the walker awaits, what a word that is no legal value of its slot does, and how a word is put where the
walker takes its next one (log 11). -/

namespace Sys2Proof.Machine

/-- The slot of a stage. -/
def Stage.slot : Stage → Slot
  | .root => .cr3
  | .table .pml4 _ => .pml4
  | .table .pdp _ => .pdp
  | .table .pd _ => .pd
  | .table .pt _ => .pt
  | .leaf4K _ => .va4K
  | .leaf2M _ => .va2M
  | .leaf1G _ => .va1G

/-- The awaited word: CR3 (R62); the entry at `EntryAddr(base, index)`, read whole in one step (R32, R62 to R65); the byte's
virtual address (R65, R70, R75). -/
def fetchWord (w : Walk) (s : State) : Except Stop Word :=
  match w.stage with
  | .root => .ok s.cr3
  | .table l b => readEntry s (entryAddr b (tableIndex l w.va))
  | .leaf4K _ => .ok w.va
  | .leaf2M _ => .ok w.va
  | .leaf1G _ => .ok w.va

/-- What a word that fits no row of its slot does: P = 0 raises PageFault and a reserved bit is refused (R66, R54); a reserved
bit of CR3 is refused (R61); a non-canonical address raises #GP or #SS (R55, R86). -/
def rejectWord (w : Walk) (e : Reject) : Host.Outcome State Fault Refusal :=
  match e, w.stage with
  | .notPresent, .table l _ => raise (.pageNotPresent w.va w.ref.acc l)
  | .mustBeZero, .table l _ => .refused (.reservedBit l)
  | .reservedCr3, _ => .refused .cr3Reserved
  | .nonCanonical, _ => raise (gpOrSs w.va w.ref.acc)
  | _, _ => .refused .notAwaited

/-- The reference of a launched walk: a supervisor read of one address. -/
def probe (va : VAddr) : Reference :=
  { va := va, acc := { kind := .read, stack := false, user := false }, kind := .translate }

/-- A walk under way at a stage, in long mode with PAE on. -/
def launchWalk (va : VAddr) (stage : Stage) (s : State) : State :=
  { s with
    longMode := true
    cr4Pae := true
    phase := .walking { ref := probe va, done := [], stage := stage, attr := noEntries } }

/-- An entry is placed: at physical address 0, entry 0 of a table at 0, where the walk of virtual address 0 reads it next. -/
def launchEntry (level : Level) (word : Word) (s : State) : State :=
  { launchWalk 0#64 (.table level 0#52) s with
    mem := s.mem.writeBytes 0 (wordBytes word)
    started := true
    changed := [] }

/-- A word put where the walker takes its next one, as a launch state (R100). A legacy-mode PDE is a PDE to the walker (R82). -/
def launchWord (slot : Slot) (word : Word) (s : State) : State :=
  match slot with
  | .cr3 => { launchWalk 0#64 .root s with cr3 := word }
  | .pml4 => launchEntry .pml4 word s
  | .pdp => launchEntry .pdp word s
  | .pd => launchEntry .pd word s
  | .pt => launchEntry .pt word s
  | .legacyPd => launchEntry .pd word s
  | .va4K => { launchWalk word (.leaf4K 0#40) s with started := true }
  | .va2M => { launchWalk word (.leaf2M 0#31) s with started := true }
  | .va1G => { launchWalk word (.leaf1G 0#22) s with started := true }

end Sys2Proof.Machine
end

