-- ==== Sys2Proof/Machine/Requests.lean ====
section
/-! DEFINITION. What the mechanism does between walks: taking the requester's next request (R107), and ending a reference
(R36). -/

namespace Sys2Proof.Machine

/-- The walk of a reference's first byte. -/
def firstByte (r : Reference) : Walk := { ref := r, done := [], stage := .root, attr := noEntries }

/-- Where a reference stands once its checks have passed: before the Translate of its first byte (R36); with no byte, at its end
(DESIGN CHOICE, log 22). -/
def firstPhase (r : Reference) : Phase := if r.size = 0 then .finishing r [] else .walking (firstByte r)

/-- A reference is taken: its checks, then its first byte (R36, R60). -/
def beginReference (r : Reference) (s : State) : Host.Outcome State Fault Refusal :=
  match checkReference s r with
  | .error e => e.outcome
  | .ok _ => .next (s.setPhase (firstPhase r))

/-- `ActivateLongMode()` (R85): #GP when CR4.PAE = 0; refused when long mode is active (D18), and after the run's first
Translate (R104). Log 26. -/
def activateLongMode (s : State) : Host.Outcome State Fault Refusal :=
  if s.cr4Pae then
    if s.longMode then .refused .alreadyActive
    else if s.started then .refused .controlChanged
    else .next (s.setLongMode.respond [.activated])
  else raise .gpActivation

/-- `CR4.PAE <- 1` (R14, R101). Refused when it would change the bit after the run's first Translate (R104). Log 24. -/
def enablePae (s : State) : Host.Outcome State Fault Refusal :=
  if s.started && !s.cr4Pae then .refused .controlChanged
  else .next (s.setCr4Pae.respond [.paeEnabled])

/-- Software loads CR3 (R8, R13, R102). The duties of R9 and R12 are on this write (R103); refused when it would change CR3 after
the run's first Translate (R104). Logs 24 and 35. -/
def writeCr3 (v : Word) (s : State) : Host.Outcome State Fault Refusal :=
  match checkCr3 s.cfg v with
  | .error e => e.outcome
  | .ok _ =>
    if s.started && v != s.cr3 then .refused .controlChanged
    else .next ((s.setCr3 v).respond [.cr3Written])

/-- `PhysRead(pa, n)` (R30), as a request (DEDUCED, log 25) and in every mode: R5 has R30 hold in long mode with CR4.PAE = 1 and the
spec says nothing of a physical access outside it (DESIGN CHOICE, log 36). -/
def physRead (pa : PAddr) (n : Nat) (s : State) : Host.Outcome State Fault Refusal :=
  match checkPhys s.cfg pa n with
  | .error e => e.outcome
  | .ok _ => .next (s.respond [.bytesRead ((physRange pa n).map fun a => s.mem.read a.toNat)])

/-- `PhysWrite(pa, n, v)` (R30); a store of the run (R39, R104). As a request (DEDUCED, log 25) and in every mode (DESIGN CHOICE,
log 36), as PhysRead. -/
def physWrite (pa : PAddr) (bytes : List Byte) (s : State) : Host.Outcome State Fault Refusal :=
  match checkPhys s.cfg pa bytes.length with
  | .error e => e.outcome
  | .ok _ =>
    match storeBytes ((physRange pa bytes.length).zip bytes) s with
    | .error e => e.outcome
    | .ok s' => .next (s'.respond [.bytesWritten])

/-- One request, already taken from the queue. -/
def serveRequest (q : Request) (s : State) : Host.Outcome State Fault Refusal :=
  match q with
  | .reference r => beginReference r s
  | .activateLongMode => activateLongMode s
  | .enablePae => enablePae s
  | .writeCr3 v => writeCr3 v s
  | .physRead pa n => physRead pa n s
  | .physWrite pa bytes => physWrite pa bytes s

/-- The next request; with none left the run has ended (R107) and nothing changes (log 28). -/
def takeRequest (s : State) : Host.Outcome State Fault Refusal :=
  match s.requests with
  | [] => .next s
  | q :: rest => serveRequest q (s.setRequests rest)

/-- Every byte is translated: the reference is answered and the mechanism waits again (R36). -/
def finishReference (r : Reference) (pas : List PAddr) (s : State) : Host.Outcome State Fault Refusal :=
  outcomeOf (answer r pas (s.setPhase .idle))

end Sys2Proof.Machine
end

