-- ==== Sys2Proof/Machine/Translate.lean ====
section
/-! DEFINITION. The operations as 40_translate_4k.md R60 and 20_memory.md R36 write them, whole, on the entries as words. The
machine performs them one awaited word a step; the two agree (the refinement statements of Certificates/Slice0). -/

namespace Sys2Proof.Machine

/-- The reserved bits that `CheckEntry` refuses in a present entry (R54, R66): PML4E bits 8:7; a PDPE's PS where 1-Gbyte pages are
not supported (R76), and bits 29:13 of one that has it; bits 20:13 of a PDE with PS. -/
def reservedSet (c : Config) (level : Level) (e : Word) : Bool :=
  match level with
  | .pml4 => e.extractLsb' 7 2 != 0#2
  | .pdp => e.getLsbD 7 && (!c.page1gb || e.extractLsb' 13 17 != 0#17)
  | .pd => e.getLsbD 7 && e.extractLsb' 13 8 != 0#8
  | .pt => false

/-- `CheckEntry(e, level, va, acc)` (R66). -/
def checkEntry (c : Config) (e : Word) (level : Level) (va : VAddr) (acc : Acc) : Except Stop Unit := do
  guardStop (!e.getLsbD 0) (.fault (.pageNotPresent va acc level))
  guardStop (reservedSet c level e) (.refused (.reservedBit level))
  guardStop (beyondPabits c (e.extractLsb' 0 52)) (.refused (.baseBeyondPabits level))

/-- Which ending a Translate took. -/
inductive PageSize where
  | page4K
  | page2M
  | page1G
deriving DecidableEq, Repr

/-- The result of a Translate: the physical address, the page size, and the entry addresses read, in order (R68). -/
structure Translation where
  pa    : PAddr
  page  : PageSize
  reads : List PAddr
deriving DecidableEq, Repr

/-- `Leaf4K`, `Leaf2M` and `Leaf1G` after their formation of `pa` (R65, R70, R75): PermCheck over the entries read, then PABITS. -/
def leaf (s : State) (va : VAddr) (acc : Acc) (level : Level) (entries : List Word) (t : Translation) :
    Except Stop Translation := do
  guardStop (!permits s.cfg.permCheck acc (attrOf entries)) (.fault (.pageDenied va acc level))
  guardStop (beyondPabits s.cfg t.pa) (.refused .addressBeyondPabits)
  return t

/-- `Translate(va, acc)` (R60). -/
def translateVa (s : State) (va : VAddr) (acc : Acc) : Except Stop Translation := do
  precondition s
  guardStop (!canonical s.cfg.vaBits va) (.fault (gpOrSs va acc))
  let pml4At := entryAddr (pml4Base s.cr3) (tableIndex .pml4 va)
  let pml4e ← readEntry s pml4At
  checkEntry s.cfg pml4e .pml4 va acc
  let pdpAt := entryAddr (tableBase pml4e) (tableIndex .pdp va)
  let pdpe ← readEntry s pdpAt
  checkEntry s.cfg pdpe .pdp va acc
  if pdpe.getLsbD 7 then
    leaf s va acc .pdp [pml4e, pdpe]
      { pa := pdpe.extractLsb' 30 22 ++ va.extractLsb' 0 30, page := .page1G, reads := [pml4At, pdpAt] }
  else do
    let pdAt := entryAddr (tableBase pdpe) (tableIndex .pd va)
    let pde ← readEntry s pdAt
    checkEntry s.cfg pde .pd va acc
    if pde.getLsbD 7 then
      leaf s va acc .pd [pml4e, pdpe, pde]
        { pa := pde.extractLsb' 21 31 ++ va.extractLsb' 0 21, page := .page2M, reads := [pml4At, pdpAt, pdAt] }
    else do
      let ptAt := entryAddr (tableBase pde) (tableIndex .pt va)
      let pte ← readEntry s ptAt
      checkEntry s.cfg pte .pt va acc
      leaf s va acc .pt [pml4e, pdpe, pde, pte]
        { pa := pte.extractLsb' 12 40 ++ va.extractLsb' 0 12, page := .page4K, reads := [pml4At, pdpAt, pdAt, ptAt] }

/-- The Translates of the bytes numbered in `ks`, in order; the first exception or refusal ends the reference (R36, R91). -/
def translateBytes (s : State) (r : Reference) : List Nat → Except Stop (List Translation)
  | [] => .ok []
  | k :: ks => do
    let t ← translateVa s (r.byteVa k) r.acc
    let ts ← translateBytes s r ks
    return t :: ts

/-- The state after the Translates of a reference: the run has begun with the first of them (R104, log 34), and the entries read
are recorded (R68). -/
def afterTranslates (s : State) (ts : List Translation) : State :=
  (if ts.isEmpty then s else s.setStarted).noteRead (ts.flatMap (·.reads))

/-- A whole reference, `Translate`, `MemRead` or `MemWrite` (R60, R36): the state it leaves, with its answer. -/
def serveReference (s : State) (r : Reference) : Except Stop State := do
  checkReference s r
  let ts ← translateBytes s r (List.range r.size)
  answer r (ts.map (·.pa)) (afterTranslates s ts)

end Sys2Proof.Machine
end

