-- ==== Sys2Proof/Machine/Step.lean ====
section
/-! DEFINITION. One step of the mechanism (log 2): an idle mechanism takes a request; a walk takes its next word, decodes it in
the slot the walk has reached, and runs it; a reference whose bytes are all translated is answered. -/

namespace Sys2Proof.Machine

/-- One step. -/
def step (s : State) : Host.Outcome State Fault Refusal :=
  match s.phase with
  | .idle => takeRequest s
  | .walking w =>
    match fetchWord w s with
    | .error e => e.outcome
    | .ok word =>
      match decodeWord w.stage.slot word with
      | .ok i => exec i s
      | .error e => rejectWord w e
  | .finishing r pas => finishReference r pas s

/-- The state with a bare word where the next step takes its word, in the slot of `bareSlot` (logs 4 and 11). The word's bits
above `nbits` are zero, so `nbits` says nothing more. -/
def State.withFetchWord (s : State) (_nbits w : Nat) : State :=
  launchWord (bareSlot (BitVec.ofNat 64 w)) (BitVec.ofNat 64 w) s

end Sys2Proof.Machine
end

