-- ==== Sys2Proof/Safety.lean ====
section
/-! DEFINITION. The terms claims are stated in: several steps, the invariant, which bits no claim may read, and runs. -/

namespace Sys2Proof.Machine

/-- `k` steps, stopping at the first exception or refusal, which is terminal (R107). -/
def steps : Nat → State → Host.Outcome State Fault Refusal
  | 0, s => .next s
  | k + 1, s =>
    match step s with
    | .next t => steps k t
    | .fault f => .fault f
    | .refused r => .refused r

/-- A state that a run from `s` passes through. -/
inductive Reaches (s : State) : State → Prop where
  | start : Reaches s s
  | step {t u : State} : Reaches s t → step t = .next u → Reaches s u

/-- What every reference under way has passed: no wrap, every byte address canonical (R23, R35). -/
def Reference.checked (c : Config) (r : Reference) : Prop :=
  r.wraps = false ∧ allCanonical c.vaBits r = true

/-- What holds of a stage: a table is 4-Kbyte aligned (R27) and lies, as a page does, below 2^PABITS (R21). -/
def Stage.inv (c : Config) : Stage → Prop
  | .root => True
  | .table _ base => base.extractLsb' 0 12 = 0#12 ∧ beyondPabits c base = false
  | .leaf4K base => beyondPabits c (base ++ 0#12 : PAddr) = false
  | .leaf2M base => beyondPabits c (base ++ 0#21 : PAddr) = false
  | .leaf1G base => beyondPabits c (base ++ 0#30 : PAddr) = false

/-- What holds of a transfer in progress: its precondition (R61) and the checks of its reference still hold, and every physical
address found lies below 2^PABITS (R21). -/
def Phase.inv (s : State) : Phase → Prop
  | .idle => True
  | .walking w =>
    precondition s = .ok () ∧ w.ref.checked s.cfg ∧ w.done.length < w.ref.size ∧
      (∀ pa ∈ w.done, beyondPabits s.cfg pa = false) ∧ w.stage.inv s.cfg ∧ (w.stage ≠ .root → s.started = true)
  | .finishing r pas =>
    precondition s = .ok () ∧ r.checked s.cfg ∧ pas.length = r.size ∧ (∀ pa ∈ pas, beyondPabits s.cfg pa = false)

/-- The machine's invariant: memory in canonical form and below 2^PABITS (R17, R21); `LongMode = 1 -> CR4.PAE = 1` (R14); no
byte of an entry that the run has read is one that its stores have changed (R104); and the transfer in progress is sound. -/
structure State.Inv (s : State) : Prop where
  memWf        : s.mem.wf = true
  memWithin    : s.mem.within (2 ^ s.cfg.paBits) = true
  longModePae  : s.longMode = true → s.cr4Pae = true
  tablesStable : ∀ e ∈ s.entriesRead, ∀ a ∈ s.changed, inEntry e a = false
  transfer     : s.phase.inv s

/-- The record of a run launched with memory `launch` (R104, log 17): a byte that differs from its launch value is listed in
`changed`, and no byte listed there lies in an entry that the run has read. -/
structure State.RunRecord (launch : Memory) (s : State) : Prop where
  listed : ∀ a : Nat, s.mem.read a ≠ launch.read a → ∃ c ∈ s.changed, c.toNat = a
  unread : ∀ e ∈ s.entriesRead, ∀ c ∈ s.changed, inEntry e c = false

/-- The addresses to which `l` stores a byte that `m` does not hold there, in order: what a store changes (R104). -/
def bytesToChange (m : Memory) (l : List (PAddr × Byte)) : List PAddr :=
  (l.filter fun c => m.read c.1.toNat != c.2).map Prod.fst

/-- An entry that `CheckEntry` lets pass (R66), bit by bit: P = 1, the must-be-zero bits of R54 are 0, a PDPE has PS only with
PAGE1GB (R76), and bits 51:0 are below 2^PABITS (R21). -/
def entrySound (c : Config) (l : Level) (e : Word) : Prop :=
  e.getLsbD 0 = true ∧ (l = .pml4 → e.extractLsb' 7 2 = 0#2) ∧
    (l = .pdp → e.getLsbD 7 = true → c.page1gb = true ∧ e.extractLsb' 13 17 = 0#17) ∧
    (l = .pd → e.getLsbD 7 = true → e.extractLsb' 13 8 = 0#8) ∧ (e.extractLsb' 0 52).toNat < 2 ^ c.paBits

/-- The level of the table that an entry row is read from; none for CR3.LM and the VA rows, which read no table. -/
def rowLevel : Instr → Option Level
  | .va4K _ => none
  | .va2M _ => none
  | .va1G _ => none
  | .cr3Lm _ => none
  | .pml4e _ => some .pml4
  | .pdpePd _ => some .pdp
  | .pdpe1G _ => some .pdp
  | .pdePt _ => some .pd
  | .pde2M _ => some .pd
  | .pte _ => some .pt
  | .pde2MLegacy _ => some .pd

/-- The byte at `a` holds accessed and dirty bits (5 and 6) that are "not held": it is byte 0 of an entry that a walk of the run
has used, and "no claim may read them" (R18, D11). -/
def State.notHeld (s : State) (a : PAddr) : Bool := s.entriesRead.contains a

/-- Two states of the requester's view agree but for CR4.PSE (R15). -/
def State.withPse (s : State) (b : Bool) : State := { s with cr4Pse := b }

/-- The same outcome of a machine whose CR4.PSE is `b`. -/
def outcomeWithPse (b : Bool) : Host.Outcome State Fault Refusal → Host.Outcome State Fault Refusal
  | .next s => .next (s.withPse b)
  | .fault f => .fault f
  | .refused r => .refused r

end Sys2Proof.Machine
end

