-- ==== Sys2Proof/Certificates/Slice0/Obligations.lean ====
section
/-! DEFINITION. The statements for the provers, from the numbered rules of spec/. -/

open Sys2Proof Sys2Proof.Machine

/-! ### Formats (30_encoding.md) -/

/-- Decoding, in its slot, the word (and the eight bytes) of a well-formed value gives the value back, for all eleven formats
(R40 to R42, R8, R47 to R52, R81). -/
def Obligations.DecodeInvertsEncode : Prop :=
  ∀ i : Instr, i.wf = true →
    decodeWord i.slot (encode i) = .ok i ∧ decode i.slot (wordBytes (encode i)) = .ok i

/-- What a word decodes to encodes to that word, belongs to the slot it was read in, and is well formed: no bit of the word is
dropped, and two words never share a meaning in a slot. -/
def Obligations.EncodeInvertsDecode : Prop :=
  ∀ (slot : Slot) (w : Word) (i : Instr), decodeWord slot w = .ok i → encode i = w ∧ i.slot = slot ∧ i.wf = true

/-- Words written out from the format tables decode to the values they stand for: 95_test_vectors.md V-F4, V-R2, the PML4E,
PDPE and PDE of P1, PDE of P2, PDPE of P3, PTE of V-L3, and P2's PDE read in the legacy layout of R81. The entry layouts are
general knowledge that the spec marks (D9, PRESUMED, log 13; the legacy one GK15, log 27). -/
def Obligations.SpecWordsDecode : Prop :=
  decodeWord .va4K 0x0000008080604ABC#64
      = .ok (.va4K { signExt := 0#16, pml4Index := 1#9, pdpIndex := 2#9, pdIndex := 3#9, ptIndex := 4#9,
                     offset := 0xABC#12 }) ∧
  decodeWord .cr3 0x0000000000001018#64 = .ok (.cr3Lm { base := 1#40, pcd := true, pwt := true }) ∧
  decodeWord .pml4 0x0000000000002003#64
      = .ok (.pml4e { nx := false, avail := 0#11, base := 2#40, avl := 0#3, ign6 := false, a := false, pcd := false,
                      pwt := false, us := false, rw := true }) ∧
  decodeWord .pdp 0x0000000000003003#64
      = .ok (.pdpePd { nx := false, avail := 0#11, base := 3#40, avl := 0#3, ign8 := false, ign6 := false, a := false,
                       pcd := false, pwt := false, us := false, rw := true }) ∧
  decodeWord .pd 0x0000000000004003#64
      = .ok (.pdePt { nx := false, avail := 0#11, base := 4#40, avl := 0#3, ign8 := false, ign6 := false, a := false,
                      pcd := false, pwt := false, us := false, rw := true }) ∧
  decodeWord .pd 0x0000000040000083#64
      = .ok (.pde2M { nx := false, avail := 0#11, base := 0x200#31, pat := false, avl := 0#3, g := false, d := false,
                      a := false, pcd := false, pwt := false, us := false, rw := true }) ∧
  decodeWord .pdp 0x0000000100000083#64
      = .ok (.pdpe1G { nx := false, avail := 0#11, base := 4#22, pat := false, avl := 0#3, g := false, d := false,
                       a := false, pcd := false, pwt := false, us := false, rw := true }) ∧
  decodeWord .pt 0xFFF0000000005003#64
      = .ok (.pte { nx := true, avail := 0x7FF#11, base := 5#40, avl := 0#3, g := false, pat := false, d := false,
                    a := false, pcd := false, pwt := false, us := false, rw := true }) ∧
  decodeWord .legacyPd 0x0000000040000083#64
      = .ok (.pde2MLegacy { nx := false, base := 0x200#31, pat := false, avl := 0#3, g := false, d := false, a := false,
                            pcd := false, pwt := false, us := false, rw := true })

/-- In every entry slot a word is read as a row exactly when P (bit 0) is 1 and the must-be-zero bits are 0: PML4E bits 8:7,
1-Gbyte PDPE bits 29:13, 2-Mbyte PDE bits 20:13 (R54); with P = 0 the reason is "not present" whatever the other bits hold
(R66). The bits are general knowledge that the spec marks (D10, logs 13 and 15). -/
def Obligations.EntriesDecodeUnlessReserved : Prop :=
  ∀ w : Word,
    ((∃ i, decodeWord .pml4 w = .ok i) ↔ w.getLsbD 0 = true ∧ w.extractLsb' 7 2 = 0#2) ∧
    ((∃ i, decodeWord .pdp w = .ok i) ↔ w.getLsbD 0 = true ∧ (w.getLsbD 7 = true → w.extractLsb' 13 17 = 0#17)) ∧
    ((∃ i, decodeWord .pd w = .ok i) ↔ w.getLsbD 0 = true ∧ (w.getLsbD 7 = true → w.extractLsb' 13 8 = 0#8)) ∧
    ((∃ i, decodeWord .pt w = .ok i) ↔ w.getLsbD 0 = true) ∧
    (∀ slot : Slot, slot = .pml4 ∨ slot = .pdp ∨ slot = .pd ∨ slot = .pt →
      (decodeWord slot w = .error .notPresent ↔ w.getLsbD 0 = false))

/-- R44: PDE.PS is bit 7. A step that reads a PDE with bit 7 clear has it point to a page table, and the page table's entry maps a
4-Kbyte page; with bit 7 set the PDE maps a 2-Mbyte page itself. -/
def Obligations.PdePageSizeBitSelects : Prop :=
  (∀ (s t : State) (w : Walk) (b : PAddr) (e : Word), s.phase = .walking w → w.stage = .table .pd b →
    fetchWord w s = .ok e → step s = .next t →
    (e.getLsbD 7 = false → decodeWord .pd e = .ok (.pdePt (PdePt.ofWord e)) ∧
      ∃ (w' : Walk) (base : PAddr), t.phase = .walking w' ∧ w'.stage = .table .pt base) ∧
    (e.getLsbD 7 = true → decodeWord .pd e = .ok (.pde2M (Pde2M.ofWord e)) ∧
      ∃ (w' : Walk) (base : BitVec 31), t.phase = .walking w' ∧ w'.stage = .leaf2M base)) ∧
  (∀ (s t : State) (w : Walk) (b : PAddr), s.phase = .walking w → w.stage = .table .pt b → step s = .next t →
    ∃ (w' : Walk) (base : BitVec 40), t.phase = .walking w' ∧ w'.stage = .leaf4K base)

/-- The three virtual-address formats read the same words, exactly the canonical ones, agree on the fields of bits 63:30, and
differ in the offset only: `Offset2M = PTIndex ‖ Offset4K` and `Offset1G = PDIndex ‖ PTIndex ‖ Offset4K` (R41 to R43). -/
def Obligations.AddressFormatsAgree : Prop :=
  ∀ va : VAddr,
    ((∃ i, decodeWord .va4K va = .ok i) ↔ canonical 48 va = true) ∧
    ((∃ i, decodeWord .va2M va = .ok i) ↔ canonical 48 va = true) ∧
    ((∃ i, decodeWord .va1G va = .ok i) ↔ canonical 48 va = true) ∧
    (canonical 48 va = true → ∃ (f : Va4K) (g : Va2M) (h : Va1G),
      decodeWord .va4K va = .ok (.va4K f) ∧ decodeWord .va2M va = .ok (.va2M g) ∧ decodeWord .va1G va = .ok (.va1G h) ∧
      f.pml4Index = g.pml4Index ∧ g.pml4Index = h.pml4Index ∧ f.pdpIndex = g.pdpIndex ∧ g.pdpIndex = h.pdpIndex ∧
      f.signExt = g.signExt ∧ g.signExt = h.signExt ∧ f.pdIndex = g.pdIndex ∧
      g.offset = f.ptIndex ++ f.offset ∧ h.offset = f.pdIndex ++ f.ptIndex ++ f.offset)

/-- A word is a legacy-mode 2-Mbyte PDE exactly when it is a long-mode one whose bits 62:52 are zero, and the fields then agree
(R82); a word's physical address by R83 is that of R70. The layout is general knowledge that the spec marks (GK15, log 27). -/
def Obligations.LegacyPdeDiffersInBits62To52 : Prop :=
  ∀ w : Word,
    (∀ f : Pde2MLegacy, decodeWord .legacyPd w = .ok (.pde2MLegacy f) ↔
      w.extractLsb' 52 11 = 0#11 ∧ decodeWord .pd w = .ok (.pde2M (legacyAsLongMode f))) ∧
    (∀ (f : Pde2MLegacy) (va : BitVec 32), decodeWord .legacyPd w = .ok (.pde2MLegacy f) →
      legacyPageAddr w va = pageAddr2M f.base (va.extractLsb' 0 21))

/-! ### Addresses (20_memory.md) -/

/-- R22: with VABITS implemented bits an address is canonical when bits VABITS-1 to 63 are all ones or all zeros; for
VABITS = 48, when bits 63:48 repeat bit 47. -/
def Obligations.CanonicalForm : Prop :=
  (∀ (n : Nat) (va : VAddr), 1 ≤ n → n ≤ 64 →
    (canonical n va = true ↔
      (∀ i, n - 1 ≤ i → i < 64 → va.getLsbD i = false) ∨ (∀ i, n - 1 ≤ i → i < 64 → va.getLsbD i = true))) ∧
  (∀ va : VAddr, canonical 48 va = true ↔ va.extractLsb' 48 16 = (va.extractLsb' 47 1).signExtend 16)

/-- The usable virtual addresses are 0 to 0x0000_7FFF_FFFF_FFFF and 0xFFFF_8000_0000_0000 up (R20); no two of them share their
low 48 bits (R65); the PML4 index is at least 256 in the upper half and at most 255 in the lower (R62). -/
def Obligations.UsableAddressRanges : Prop :=
  (∀ va : VAddr, canonical 48 va = true ↔ va.toNat ≤ 0x00007FFFFFFFFFFF ∨ 0xFFFF800000000000 ≤ va.toNat) ∧
  (∀ va va' : VAddr, canonical 48 va = true → canonical 48 va' = true →
    va.extractLsb' 0 48 = va'.extractLsb' 0 48 → va = va') ∧
  (∀ va : VAddr, canonical 48 va = true →
    (va.toNat ≤ 0x00007FFFFFFFFFFF → (tableIndex .pml4 va).toNat ≤ 255) ∧
    (0xFFFF800000000000 ≤ va.toNat → 256 ≤ (tableIndex .pml4 va).toNat))

/-- R28: the entry with index `i` of an aligned table is at `B + 8*i`, 8-byte aligned, inside the table's 4096 bytes. The
spacing is the spec's own choice (D8, log 14). -/
def Obligations.EntryAddressIsBasePlusEightTimesIndex : Prop :=
  ∀ (base : PAddr) (i : BitVec 9), base.extractLsb' 0 12 = 0#12 →
    (entryAddr base i).toNat = base.toNat + 8 * i.toNat ∧ (entryAddr base i).toNat % 8 = 0 ∧
      (entryAddr base i).toNat + 7 < base.toNat + 4096

/-- R67: every address the walk forms is a concatenation of disjoint fields; no addition carries. -/
def Obligations.AddressesConcatenateWithoutCarry : Prop :=
  (∀ (base : BitVec 40) (o : BitVec 12), (pageAddr4K base o).toNat = base.toNat * 2 ^ 12 + o.toNat) ∧
  (∀ (base : BitVec 31) (o : BitVec 21), (pageAddr2M base o).toNat = base.toNat * 2 ^ 21 + o.toNat) ∧
  (∀ (base : BitVec 22) (o : BitVec 30), (pageAddr1G base o).toNat = base.toNat * 2 ^ 30 + o.toNat) ∧
  (∀ (base : PAddr) (i : BitVec 9),
    (entryAddr base i).toNat = (base.extractLsb' 12 40).toNat * 2 ^ 12 + i.toNat * 2 ^ 3)

/-- R31: an entry is read little-endian, the byte at the lowest address least significant. The byte order is the spec's own
choice (D7, log 12). -/
def Obligations.EntriesAreLittleEndian : Prop :=
  ∀ (m : Memory) (a : Nat),
    (word64 m a).toNat = joinLE ((List.range 8).map fun k => m.read (a + k)) ∧
    ∀ k i : Nat, k < 8 → i < 8 → (word64 m a).getLsbD (8 * k + i) = (m.read (a + k)).getLsbD i

/-- A word stored as its eight bytes is read back, and the bytes around it stay (R30, R31). -/
def Obligations.StoredWordReadsBack : Prop :=
  ∀ (m : Memory) (a : Nat) (w : Word), m.wf = true →
    word64 (m.writeBytes a (wordBytes w)) a = w ∧
    (∀ a', a' < a ∨ a + 8 ≤ a' → (m.writeBytes a (wordBytes w)).read a' = m.read a')

/-- The walk reads the entry that R62 to R65 name: at a table of aligned base `b`, the word at `b + 8 * index`, the index being
bits 47:39, 38:30, 29:21 or 20:12 of the byte's address. It reads it exactly when the entry lies below 2^PABITS and the run has
changed none of its bytes; beyond PABITS (R21, R30) and after such a change (R104, D12, log 17) it is refused. CR3 and the byte's
address, the other awaited words, are always there. Spacing and byte order are the spec's own choices (D7, D8). -/
def Obligations.WalkReadsTheIndexedEntry : Prop :=
  (∀ (s : State) (w : Walk) (l : Level) (b : PAddr), w.stage = .table l b → b.extractLsb' 0 12 = 0#12 →
    ∀ pos : Nat, pos = b.toNat + 8 * (w.va.toNat /
      (match l with | .pml4 => 2 ^ 39 | .pdp => 2 ^ 30 | .pd => 2 ^ 21 | .pt => 2 ^ 12) % 512) →
    (pos + 7 < 2 ^ s.cfg.paBits → (∀ a ∈ s.changed, ¬(pos ≤ a.toNat ∧ a.toNat < pos + 8)) →
      fetchWord w s = .ok (word64 s.mem pos)) ∧
    (2 ^ s.cfg.paBits ≤ pos + 7 → fetchWord w s = .error (.refused .addressBeyondPabits)) ∧
    (pos + 7 < 2 ^ s.cfg.paBits → (∃ a ∈ s.changed, pos ≤ a.toNat ∧ a.toNat < pos + 8) →
      fetchWord w s = .error (.refused .tableChanged))) ∧
  (∀ (s : State) (w : Walk), w.stage = .root → fetchWord w s = .ok s.cr3) ∧
  (∀ (s : State) (w : Walk), (∃ b, w.stage = .leaf4K b) ∨ (∃ b, w.stage = .leaf2M b) ∨ (∃ b, w.stage = .leaf1G b) →
    fetchWord w s = .ok w.va)

/-! ### Reset and the step -/

/-- The state after reset, every field. R19 and R100 give no value: every one is the model's (PRESUMED, log 9: CR3, CR4.PAE,
CR4.PSE, LongMode; DEDUCED, log 5: VABITS; DESIGN CHOICE, logs 6, 7 and 8: PABITS, PAGE1GB, PermCheck; DESIGN CHOICE, log 10: what
memory reads as; DESIGN CHOICE, log 11: nothing requested, answered, under way or recorded). -/
def Obligations.ResetState : Prop :=
  core.reset = State.reset ∧ State.reset.cr3 = 0#64 ∧ State.reset.cr4Pae = false ∧ State.reset.cr4Pse = false ∧
    State.reset.longMode = false ∧ State.reset.cfg.vaBits = 48 ∧ State.reset.cfg.paBits = 52 ∧
    State.reset.cfg.page1gb = true ∧ State.reset.cfg.permCheck = .strict ∧ State.reset.phase = .idle ∧
    State.reset.requests = [] ∧ State.reset.results = [] ∧ State.reset.started = false ∧ State.reset.entriesRead = [] ∧
    State.reset.changed = [] ∧ ∀ a, State.reset.mem.read a = unlistedByte

/-- The reset state meets the invariant. -/
def Obligations.ResetMeetsInvariant : Prop := State.reset.Inv

/-- A step of a walk runs the word it awaits: when the word decodes, in the slot of the stage, to `i`, the step is `exec i`
(the host's `core.step` is that step). The cut of a walk into steps is the model's (DESIGN CHOICE, log 2), and so is the reading of
a format as an instruction (DEDUCED, log 1). -/
def Obligations.StepRunsTheAwaitedWord : Prop :=
  ∀ (s : State) (w : Walk) (word : Word) (i : Instr),
    s.phase = .walking w → fetchWord w s = .ok word → decodeWord w.stage.slot word = .ok i →
    step s = exec i s ∧ core.step s = exec i s

/-- R107: with no request left an idle mechanism changes nothing (log 28). -/
def Obligations.IdleWithoutRequestsStays : Prop :=
  ∀ s : State, s.phase = .idle → s.requests = [] → step s = .next s

/-- R66, `CheckEntry`, in its order, as the step that reads an entry `e` of a table performs it: P = 0 raises PageFault; the
reserved bits of a PML4E, of a 1-Gbyte PDPE (all of it without PAGE1GB) and of a 2-Mbyte PDE are refused; a base at or above
PABITS is refused; otherwise the walk goes on, with the entry's address recorded. The checks are the spec's own choice (D10,
log 15). -/
def Obligations.EntryCheck : Prop :=
  ∀ (s : State) (w : Walk) (l : Level) (b : PAddr) (e : Word),
    s.phase = .walking w → w.stage = .table l b → fetchWord w s = .ok e →
    (e.getLsbD 0 = false → step s = .fault (.pageNotPresent w.va w.ref.acc l)) ∧
    (e.getLsbD 0 = true →
      ((l = .pml4 ∧ e.extractLsb' 7 2 ≠ 0#2) ∨
       (l = .pdp ∧ e.getLsbD 7 = true ∧ s.cfg.page1gb = false) ∨
       (l = .pdp ∧ e.getLsbD 7 = true ∧ e.extractLsb' 13 17 ≠ 0#17) ∨
       (l = .pd ∧ e.getLsbD 7 = true ∧ e.extractLsb' 13 8 ≠ 0#8) → step s = .refused (.reservedBit l)) ∧
      (¬(l = .pml4 ∧ e.extractLsb' 7 2 ≠ 0#2) ∧
       ¬(l = .pdp ∧ e.getLsbD 7 = true ∧ s.cfg.page1gb = false) ∧
       ¬(l = .pdp ∧ e.getLsbD 7 = true ∧ e.extractLsb' 13 17 ≠ 0#17) ∧
       ¬(l = .pd ∧ e.getLsbD 7 = true ∧ e.extractLsb' 13 8 ≠ 0#8) →
        (2 ^ s.cfg.paBits ≤ (e.extractLsb' 0 52).toNat → step s = .refused (.baseBeyondPabits l)) ∧
        ((e.extractLsb' 0 52).toNat < 2 ^ s.cfg.paBits → ∃ t, step s = .next t ∧
          t.entriesRead = s.entriesRead ++ [entryAddr b (tableIndex l w.va)])))

/-! ### The rows: what each does, and when it completes -/

/-- CR3.LM (R8, R61, R62): in long mode with PAE, VABITS = 48, the base below 2^PABITS and the byte's address canonical, the walk
goes to the PML4 table at `CR3[51:12] ‖ 0^12`; nothing else changes but that the run has begun. PCD and PWT have no part. -/
def Obligations.Cr3RowGivesThePml4Base : Prop :=
  ∀ (f : Cr3Lm) (s : State) (w : Walk), s.phase = .walking w → w.stage = .root →
    s.longMode = true → s.cr4Pae = true → s.cfg.vaBits = 48 → f.base.toNat * 4096 < 2 ^ s.cfg.paBits →
    canonical 48 w.va = true →
    exec (.cr3Lm f) s = .next { s with
      started := true
      phase := .walking { w with stage := .table .pml4 (f.base ++ 0#12), attr := noEntries } }

/-- PML4E, PDPE.PD and PDE.PT (R63, R64, R65): at their level, with the base below 2^PABITS, the walk goes to the next table at
bits 51:12 ‖ 0^12; the entry's address is recorded, and its R/W, U/S and NX join the effective attributes (R90); nothing else
changes. The places of the fields are general knowledge that the spec marks (D9, log 13). -/
def Obligations.PointerRowsGoToTheNextTable : Prop :=
  ∀ (s : State) (w : Walk) (b : PAddr), s.phase = .walking w →
    (∀ f : Pml4e, w.stage = .table .pml4 b → f.base.toNat * 4096 < 2 ^ s.cfg.paBits →
      exec (.pml4e f) s = .next { s with
        entriesRead := s.entriesRead ++ [entryAddr b (w.va.extractLsb' 39 9)]
        phase := .walking { w with
          stage := .table .pdp (f.base ++ 0#12)
          attr := ⟨w.attr.writable && f.rw, w.attr.user && f.us, w.attr.noexec || f.nx⟩ } }) ∧
    (∀ f : PdpePd, w.stage = .table .pdp b → f.base.toNat * 4096 < 2 ^ s.cfg.paBits →
      exec (.pdpePd f) s = .next { s with
        entriesRead := s.entriesRead ++ [entryAddr b (w.va.extractLsb' 30 9)]
        phase := .walking { w with
          stage := .table .pd (f.base ++ 0#12)
          attr := ⟨w.attr.writable && f.rw, w.attr.user && f.us, w.attr.noexec || f.nx⟩ } }) ∧
    (∀ f : PdePt, w.stage = .table .pd b → f.base.toNat * 4096 < 2 ^ s.cfg.paBits →
      exec (.pdePt f) s = .next { s with
        entriesRead := s.entriesRead ++ [entryAddr b (w.va.extractLsb' 21 9)]
        phase := .walking { w with
          stage := .table .pt (f.base ++ 0#12)
          attr := ⟨w.attr.writable && f.rw, w.attr.user && f.us, w.attr.noexec || f.nx⟩ } })

/-- PTE, PDE.2M and PDPE.1G (R65, R70, R75): at their level, with the base below 2^PABITS (and PAGE1GB for the last), the walk
goes to the ending of the page size with the page's base bits; nothing else changes but as for a pointer row. The places of the
fields are general knowledge that the spec marks (D9, log 13). -/
def Obligations.FinalRowsGiveThePageBase : Prop :=
  ∀ (s : State) (w : Walk) (b : PAddr), s.phase = .walking w →
    (∀ f : Pte, w.stage = .table .pt b → f.base.toNat * 2 ^ 12 < 2 ^ s.cfg.paBits →
      exec (.pte f) s = .next { s with
        entriesRead := s.entriesRead ++ [entryAddr b (w.va.extractLsb' 12 9)]
        phase := .walking { w with
          stage := .leaf4K f.base
          attr := ⟨w.attr.writable && f.rw, w.attr.user && f.us, w.attr.noexec || f.nx⟩ } }) ∧
    (∀ f : Pde2M, w.stage = .table .pd b → f.base.toNat * 2 ^ 21 < 2 ^ s.cfg.paBits →
      exec (.pde2M f) s = .next { s with
        entriesRead := s.entriesRead ++ [entryAddr b (w.va.extractLsb' 21 9)]
        phase := .walking { w with
          stage := .leaf2M f.base
          attr := ⟨w.attr.writable && f.rw, w.attr.user && f.us, w.attr.noexec || f.nx⟩ } }) ∧
    (∀ f : Pdpe1G, s.cfg.page1gb = true → w.stage = .table .pdp b → f.base.toNat * 2 ^ 30 < 2 ^ s.cfg.paBits →
      exec (.pdpe1G f) s = .next { s with
        entriesRead := s.entriesRead ++ [entryAddr b (w.va.extractLsb' 30 9)]
        phase := .walking { w with
          stage := .leaf1G f.base
          attr := ⟨w.attr.writable && f.rw, w.attr.user && f.us, w.attr.noexec || f.nx⟩ } })

/-- VA.4K, VA.2M and VA.1G (R65, R70, R75): in their ending, allowed by PermCheck and below 2^PABITS, the byte's physical address
is the page's base bits followed by the row's offset; the reference goes on to its next byte, or with every byte translated to
its end; nothing else changes. -/
def Obligations.AddressRowsFormThePhysicalAddress : Prop :=
  ∀ (s : State) (w : Walk), s.phase = .walking w → permits s.cfg.permCheck w.ref.acc w.attr = true →
    (∀ (f : Va4K) (base : BitVec 40), w.stage = .leaf4K base →
      base.toNat * 2 ^ 12 + f.offset.toNat < 2 ^ s.cfg.paBits →
      exec (.va4K f) s = .next { s with
        phase := if w.done.length + 1 < w.ref.size
          then .walking { w with done := w.done ++ [base ++ f.offset], stage := .root, attr := noEntries }
          else .finishing w.ref (w.done ++ [base ++ f.offset]) }) ∧
    (∀ (f : Va2M) (base : BitVec 31), w.stage = .leaf2M base →
      base.toNat * 2 ^ 21 + f.offset.toNat < 2 ^ s.cfg.paBits →
      exec (.va2M f) s = .next { s with
        phase := if w.done.length + 1 < w.ref.size
          then .walking { w with done := w.done ++ [base ++ f.offset], stage := .root, attr := noEntries }
          else .finishing w.ref (w.done ++ [base ++ f.offset]) }) ∧
    (∀ (f : Va1G) (base : BitVec 22), w.stage = .leaf1G base →
      base.toNat * 2 ^ 30 + f.offset.toNat < 2 ^ s.cfg.paBits →
      exec (.va1G f) s = .next { s with
        phase := if w.done.length + 1 < w.ref.size
          then .walking { w with done := w.done ++ [base ++ f.offset], stage := .root, attr := noEntries }
          else .finishing w.ref (w.done ++ [base ++ f.offset]) })

/-- PDE.2M.LEGACY in long mode (R82, log 27): its word is that of the PDE.2M with the same fields and zero bits 62:52, and it
does what that row does: it completes at the PD level with the base below 2^PABITS. The model's reading of R82, DEDUCED. -/
def Obligations.LegacyRowIsThePdeOfTheSameBits : Prop :=
  ∀ (f : Pde2MLegacy) (s : State), s.longMode = true →
    encode (.pde2MLegacy f) = encode (.pde2M (legacyAsLongMode f)) ∧
    exec (.pde2MLegacy f) s = exec (.pde2M (legacyAsLongMode f)) s ∧
    (∀ (w : Walk) (b : PAddr), s.phase = .walking w → w.stage = .table .pd b →
      f.base.toNat * 2 ^ 21 < 2 ^ s.cfg.paBits →
      exec (.pde2MLegacy f) s = .next { s with
        entriesRead := s.entriesRead ++ [entryAddr b (w.va.extractLsb' 21 9)]
        phase := .walking { w with
          stage := .leaf2M f.base
          attr := ⟨w.attr.writable && f.rw, w.attr.user && f.us, w.attr.noexec || f.nx⟩ } })

/-- R84: outside long mode the legacy row is refused in every state, and so is a reference. The spec's own choice (D18, D25,
log 27). -/
def Obligations.LegacyModeNotExecuted : Prop :=
  ∀ s : State, s.longMode = false →
    (∀ f : Pde2MLegacy, exec (.pde2MLegacy f) s = .refused .legacyMode) ∧
    (∀ (r : Reference) (rest : List Request), s.phase = .idle → s.requests = .reference r :: rest →
      step s = .refused .notLongMode)

/-- The frame of all eleven rows: a row that completes leaves the parameters, CR3, CR4, LongMode, every byte of memory, the
requests, the results and the list of changed bytes as they were. The VA rows and CR3.LM also leave the entries read; an entry row
adds the address of the entry it was read from, at its level, and nothing else. CR3.LM sets `started`, the others leave it. Bits 5
and 6 of a used entry are as in PhysMem, which says nothing of the processor's (D11, log 16). -/
def Obligations.RowsFrame : Prop :=
  ∀ (i : Instr) (s t : State), exec i s = .next t →
    t.cfg = s.cfg ∧ t.cr3 = s.cr3 ∧ t.cr4Pae = s.cr4Pae ∧ t.cr4Pse = s.cr4Pse ∧ t.longMode = s.longMode ∧
    (∀ a, t.mem.read a = s.mem.read a) ∧ t.requests = s.requests ∧ t.results = s.results ∧ t.changed = s.changed ∧
    (rowLevel i = none → t.entriesRead = s.entriesRead) ∧
    (∀ l, rowLevel i = some l → ∃ (w : Walk) (b : PAddr), s.phase = .walking w ∧ w.stage = .table l b ∧
      t.entriesRead = s.entriesRead ++ [entryAddr b (tableIndex l w.va)]) ∧
    ((∃ f, i = .cr3Lm f) → t.started = true) ∧ ((∀ f, i ≠ .cr3Lm f) → t.started = s.started)

/-! ### Where rows and references stop -/

/-- R90: a walk whose attributes PermCheck denies ends in a PageFault. The spec's own choice (D10, log 8); that the fault carries the
level of the walk's final entry is the model's (DEDUCED, log 23). -/
def Obligations.DeniedAccessRaisesPageFault : Prop :=
  ∀ (s : State) (w : Walk), s.phase = .walking w → permits s.cfg.permCheck w.ref.acc w.attr = false →
    (∀ f base, w.stage = .leaf4K base → exec (.va4K f) s = .fault (.pageDenied w.va w.ref.acc .pt)) ∧
    (∀ f base, w.stage = .leaf2M base → exec (.va2M f) s = .fault (.pageDenied w.va w.ref.acc .pd)) ∧
    (∀ f base, w.stage = .leaf1G base → exec (.va1G f) s = .fault (.pageDenied w.va w.ref.acc .pdp))

/-- The effective attributes of R90: taking the entries' R/W, U/S and NX one by one gives R/W and U/S ANDed over all of them
and NX ORed. -/
def Obligations.AttributesAreAccumulated : Prop :=
  ∀ es : List Word,
    es.foldl (fun t e => meet t (e.getLsbD 1) (e.getLsbD 2) (e.getLsbD 63)) noEntries = attrOf es ∧
    ((attrOf es).writable = true ↔ ∀ e ∈ es, e.getLsbD 1 = true) ∧
    ((attrOf es).user = true ↔ ∀ e ∈ es, e.getLsbD 2 = true) ∧
    ((attrOf es).noexec = true ↔ ∃ e ∈ es, e.getLsbD 63 = true)

/-- PermCheck is open (R90): every function of descriptor and attributes is the meaning of some value of the parameter; and the
strict value denies exactly as R90's strictest reading says. -/
def Obligations.PermCheckIsOpen : Prop :=
  (∀ f : Acc → Attr → Bool, ∃ p : PermCheck, ∀ acc t, permits p acc t = f acc t) ∧
  (∀ acc t, permits .strict acc t = true ↔
    (acc.kind = .write → t.writable = true) ∧ (acc.user = true → t.user = true) ∧
      (acc.kind = .fetch → t.noexec = false))

/-- R76: without PAGE1GB the step that reads a present PDPE with bit 7 set refuses it. The spec's own choice (D4, log 15). -/
def Obligations.OneGbytePdpeRefusedWithoutSupport : Prop :=
  ∀ (s : State) (w : Walk) (b : PAddr) (e : Word), s.cfg.page1gb = false →
    s.phase = .walking w → w.stage = .table .pdp b → fetchWord w s = .ok e →
    e.getLsbD 0 = true → e.getLsbD 7 = true → step s = .refused (.reservedBit .pdp)

/-- R21: an address at or above 2^PABITS is refused, whether an entry's base or the physical address of a byte. The spec's own
choice (D21). -/
def Obligations.AddressesBeyondPabitsRefused : Prop :=
  ∀ (s : State) (w : Walk), s.phase = .walking w →
    (∀ (f : Pml4e) b, w.stage = .table .pml4 b → 2 ^ s.cfg.paBits ≤ f.base.toNat * 2 ^ 12 →
      exec (.pml4e f) s = .refused (.baseBeyondPabits .pml4)) ∧
    (∀ (f : PdpePd) b, w.stage = .table .pdp b → 2 ^ s.cfg.paBits ≤ f.base.toNat * 2 ^ 12 →
      exec (.pdpePd f) s = .refused (.baseBeyondPabits .pdp)) ∧
    (∀ (f : PdePt) b, w.stage = .table .pd b → 2 ^ s.cfg.paBits ≤ f.base.toNat * 2 ^ 12 →
      exec (.pdePt f) s = .refused (.baseBeyondPabits .pd)) ∧
    (∀ (f : Pte) b, w.stage = .table .pt b → 2 ^ s.cfg.paBits ≤ f.base.toNat * 2 ^ 12 →
      exec (.pte f) s = .refused (.baseBeyondPabits .pt)) ∧
    (∀ (f : Pde2M) b, w.stage = .table .pd b → 2 ^ s.cfg.paBits ≤ f.base.toNat * 2 ^ 21 →
      exec (.pde2M f) s = .refused (.baseBeyondPabits .pd)) ∧
    (∀ (f : Pde2MLegacy) b, s.longMode = true → w.stage = .table .pd b → 2 ^ s.cfg.paBits ≤ f.base.toNat * 2 ^ 21 →
      exec (.pde2MLegacy f) s = .refused (.baseBeyondPabits .pd)) ∧
    (∀ (f : Pdpe1G) b, s.cfg.page1gb = true → w.stage = .table .pdp b → 2 ^ s.cfg.paBits ≤ f.base.toNat * 2 ^ 30 →
      exec (.pdpe1G f) s = .refused (.baseBeyondPabits .pdp)) ∧
    (permits s.cfg.permCheck w.ref.acc w.attr = true →
      (∀ (f : Va4K) base, w.stage = .leaf4K base → 2 ^ s.cfg.paBits ≤ base.toNat * 2 ^ 12 + f.offset.toNat →
        exec (.va4K f) s = .refused .addressBeyondPabits) ∧
      (∀ (f : Va2M) base, w.stage = .leaf2M base → 2 ^ s.cfg.paBits ≤ base.toNat * 2 ^ 21 + f.offset.toNat →
        exec (.va2M f) s = .refused .addressBeyondPabits) ∧
      (∀ (f : Va1G) base, w.stage = .leaf1G base → 2 ^ s.cfg.paBits ≤ base.toNat * 2 ^ 30 + f.offset.toNat →
        exec (.va1G f) s = .refused .addressBeyondPabits))

/-- R61: a reference is taken only in long mode with CR4.PAE = 1, VABITS = 48, and CR3 with its reserved bits and its bits at
or above PABITS clear; otherwise it is refused, whatever its address and access (R91). The spec's own choice (D15, D18). A
reference of no byte goes to its end at once (DESIGN CHOICE, log 22). -/
def Obligations.PreconditionOfAReference : Prop :=
  ∀ (s : State) (r : Reference) (rest : List Request), s.phase = .idle → s.requests = .reference r :: rest →
    (¬(s.longMode = true ∧ s.cr4Pae = true ∧ s.cfg.vaBits = 48 ∧ s.cr3.extractLsb' 52 12 = 0#12 ∧
        s.cr3.extractLsb' 5 7 = 0#7 ∧ s.cr3.extractLsb' 0 3 = 0#3 ∧
        (s.cr3.extractLsb' 12 40).toNat * 4096 < 2 ^ s.cfg.paBits) →
      ∃ reason, step s = .refused reason) ∧
    (s.longMode = true ∧ s.cr4Pae = true ∧ s.cfg.vaBits = 48 ∧ s.cr3.extractLsb' 52 12 = 0#12 ∧
        s.cr3.extractLsb' 5 7 = 0#7 ∧ s.cr3.extractLsb' 0 3 = 0#3 ∧
        (s.cr3.extractLsb' 12 40).toNat * 4096 < 2 ^ s.cfg.paBits →
      r.va.toNat + r.size - 1 < 2 ^ 64 → (∀ k, k < r.size → canonical 48 (r.byteVa k) = true) →
      step s = .next { s with
        requests := rest
        phase := if r.size = 0 then .finishing r []
          else .walking { ref := r, done := [], stage := .root, attr := noEntries } })

/-- R23 and R86: a reference that meets the precondition and does not wrap, but has one byte whose address is not canonical,
raises #SS when it is a stack reference and #GP otherwise, before any table is read. That one byte is enough, and which of the
two is raised, are the spec's own choices (D5, D6, logs 18 and 19). -/
def Obligations.NonCanonicalReferenceRaises : Prop :=
  ∀ (s : State) (r : Reference) (rest : List Request), s.phase = .idle → s.requests = .reference r :: rest →
    precondition s = .ok () → r.va.toNat + r.size - 1 < 2 ^ 64 →
    (∃ k, k < r.size ∧ canonical 48 (r.byteVa k) = false) →
    step s = .fault (if r.acc.stack = true then .ssNonCanonical r.va r.acc else .gpNonCanonical r.va r.acc)

/-- A reference past the end of the virtual address space is refused (R35), canonical or not. The spec's own choice (D17, log
22). -/
def Obligations.WrappingReferenceRefused : Prop :=
  ∀ (s : State) (r : Reference) (rest : List Request), s.phase = .idle → s.requests = .reference r :: rest →
    precondition s = .ok () → 2 ^ 64 ≤ r.va.toNat + r.size - 1 → step s = .refused .wraps

/-- R85: `ActivateLongMode` raises #GP when CR4.PAE = 0; sets LongMode, and it alone of the machine's state, when CR4.PAE = 1
and long mode is not active; and is refused when long mode is active, or the run has begun its first Translate (R104). The
refusals and their order are choices (D12, D18, log 26). -/
def Obligations.ActivationNeedsPae : Prop :=
  ∀ (s : State) (rest : List Request), s.phase = .idle → s.requests = .activateLongMode :: rest →
    (s.cr4Pae = false → step s = .fault .gpActivation) ∧
    (s.cr4Pae = true → s.longMode = true → step s = .refused .alreadyActive) ∧
    (s.cr4Pae = true → s.longMode = false → s.started = true → step s = .refused .controlChanged) ∧
    (s.cr4Pae = true → s.longMode = false → s.started = false →
      step s = .next { s with longMode := true, requests := rest, results := s.results ++ [.activated] })

/-- R101: PAE before long mode. Setting CR4.PAE and then activating succeeds in two steps; activating first raises #GP, and the
run ends there. The request that sets CR4.PAE is the model's (DEDUCED, log 24). -/
def Obligations.PaeBeforeLongMode : Prop :=
  ∀ (s : State) (rest : List Request), s.phase = .idle → s.longMode = false → s.started = false →
    (s.requests = .enablePae :: .activateLongMode :: rest →
      steps 2 s = .next { s with
        cr4Pae := true
        longMode := true
        requests := rest
        results := s.results ++ [.paeEnabled, .activated] }) ∧
    (s.cr4Pae = false → s.requests = .activateLongMode :: .enablePae :: rest →
      ∀ k, 1 ≤ k → steps k s = .fault .gpActivation)

/-- Loading CR3, in either mode (log 24; DEDUCED, log 35): a value with a reserved bit set (R12), or with a base bit at or above
PABITS set (R9), is refused (R103, the spec's own choice D15); any other is loaded before the run's first Translate, and nothing
else changes; after it (R104, the spec's own choice D12, log 17) another value than CR3's is refused, and CR3's own value, which
changes nothing, is loaded. -/
def Obligations.Cr3LoadKeepsItsDuties : Prop :=
  ∀ (s : State) (v : Word) (rest : List Request), s.phase = .idle → s.requests = .writeCr3 v :: rest →
    (¬(v.extractLsb' 52 12 = 0#12 ∧ v.extractLsb' 5 7 = 0#7 ∧ v.extractLsb' 0 3 = 0#3) → step s = .refused .cr3Reserved) ∧
    (v.extractLsb' 52 12 = 0#12 ∧ v.extractLsb' 5 7 = 0#7 ∧ v.extractLsb' 0 3 = 0#3 →
      (2 ^ s.cfg.paBits ≤ (v.extractLsb' 12 40).toNat * 4096 → step s = .refused .cr3BeyondPabits) ∧
      ((v.extractLsb' 12 40).toNat * 4096 < 2 ^ s.cfg.paBits →
        (s.started = false ∨ v = s.cr3 →
          step s = .next { s with cr3 := v, requests := rest, results := s.results ++ [.cr3Written] }) ∧
        (s.started = true → v ≠ s.cr3 → step s = .refused .controlChanged)))

/-! ### Memory accesses -/

/-- R30: PhysRead gives the bytes `PhysMem[pa]`, ..., `PhysMem[pa+n-1]`, PhysWrite stores them, and both refuse when
`pa + n - 1 >= 2^PABITS`. A byte stored into an entry that the run has read must be the byte held there, which is no change (R104,
D12, log 17); the bytes that were not held are added to `changed`, in order, and no other. That a requester may ask for them is the
model's (DEDUCED, log 25), and so are their running in every mode (DESIGN CHOICE, log 36) and with no byte (DESIGN CHOICE, log 22).
Bits 5 and 6 of a used entry are as in PhysMem, which says nothing of the processor's (D11, log 16). -/
def Obligations.PhysicalAccess : Prop :=
  ∀ (s : State) (pa : PAddr) (rest : List Request), s.phase = .idle → s.mem.wf = true →
    (∀ n, s.requests = .physRead pa n :: rest →
      (2 ^ s.cfg.paBits ≤ pa.toNat + n - 1 → step s = .refused .addressBeyondPabits) ∧
      (pa.toNat + n - 1 < 2 ^ s.cfg.paBits → step s = .next { s with
        requests := rest
        results := s.results ++ [.bytesRead ((List.range n).map fun k => s.mem.read (pa.toNat + k))] })) ∧
    (∀ bytes : List Byte, s.requests = .physWrite pa bytes :: rest →
      (2 ^ s.cfg.paBits ≤ pa.toNat + bytes.length - 1 → step s = .refused .addressBeyondPabits) ∧
      (pa.toNat + bytes.length - 1 < 2 ^ s.cfg.paBits →
        (∀ k (h : k < bytes.length), ∀ e ∈ s.entriesRead, e.toNat ≤ pa.toNat + k → pa.toNat + k < e.toNat + 8 →
          s.mem.read (pa.toNat + k) = bytes[k]) →
        ∃ t, step s = .next t ∧
          t = { s with requests := rest, mem := t.mem, changed := t.changed, results := s.results ++ [.bytesWritten] } ∧
          (∀ k (h : k < bytes.length), t.mem.read (pa.toNat + k) = bytes[k]) ∧
          (∀ a, a < pa.toNat ∨ pa.toNat + bytes.length ≤ a → t.mem.read a = s.mem.read a) ∧
          t.changed = s.changed ++ bytesToChange s.mem ((physRange pa bytes.length).zip bytes)))

/-- The end of a Translate or a MemRead (R36, R60): the answer is the physical address, or the bytes at the addresses found,
byte 0 first; memory and everything else stay. The step of the answer is the model's cut (DESIGN CHOICE, log 2). -/
def Obligations.TranslateAndReadAnswer : Prop :=
  ∀ (s : State) (r : Reference) (pas : List PAddr), s.phase = .finishing r pas →
    (∀ pa, r.kind = .translate → pas = [pa] →
      step s = .next { s with phase := .idle, results := s.results ++ [.translated pa] }) ∧
    (∀ n, r.kind = .read n →
      step s = .next { s with
        phase := .idle
        results := s.results ++ [.bytesRead (pas.map fun pa => s.mem.read pa.toNat)] })

/-- The end of a MemWrite (R36): "for k in 0 .. n-1 : PhysMem[pa_k] <- v[8k+7:8k]". Where every byte stored into an entry that the
run has read is the byte held there, which is no change (R104, D12, log 17), it completes; each address holds the last byte stored
to it, every other its old byte. An address is added to `changed` exactly when a byte that it did not hold is stored to it; where the
addresses differ, those addresses are added once each, in order. Nothing else changes. The order is the spec's own choice (D17, log
30). -/
def Obligations.WriteStoresItsBytes : Prop :=
  ∀ (s : State) (r : Reference) (pas : List PAddr) (bytes : List Byte), s.phase = .finishing r pas →
    r.kind = .write bytes → s.mem.wf = true →
    (∀ c ∈ pas.zip bytes, ∀ e ∈ s.entriesRead, inEntry e c.1 = true → s.mem.read c.1.toNat = c.2) →
    ∃ t, step s = .next t ∧
      t = { s with phase := .idle, mem := t.mem, changed := t.changed, results := s.results ++ [.bytesWritten] } ∧
      (∀ a : Nat, t.mem.read a =
        (pas.zip bytes).foldl (fun old c => if c.1.toNat = a then c.2 else old) (s.mem.read a)) ∧
      (∀ a : Nat, (∀ pa ∈ pas, pa.toNat ≠ a) → t.mem.read a = s.mem.read a) ∧
      (∃ l, t.changed = s.changed ++ l ∧
        (∀ a, a ∈ l ↔ ∃ c ∈ pas.zip bytes, c.1 = a ∧ s.mem.read a.toNat ≠ c.2) ∧
        (pas.Nodup → l = bytesToChange s.mem (pas.zip bytes)))

/-- R104: a MemWrite or a PhysWrite that would change a byte of an entry that the run has read is refused; so is the walk's reading
of an entry with a byte that the run's stores have changed. The spec's own choice (D12, log 17). -/
def Obligations.ChangedTablesRefused : Prop :=
  (∀ (s : State) (r : Reference) (pas : List PAddr) (bytes : List Byte), s.phase = .finishing r pas →
    r.kind = .write bytes →
    (∃ c ∈ pas.zip bytes, ∃ e ∈ s.entriesRead, inEntry e c.1 = true ∧ s.mem.read c.1.toNat ≠ c.2) →
    step s = .refused .tableChanged) ∧
  (∀ (s : State) (pa : PAddr) (bytes : List Byte) (rest : List Request), s.phase = .idle →
    s.requests = .physWrite pa bytes :: rest → pa.toNat + bytes.length - 1 < 2 ^ s.cfg.paBits →
    (∃ (k : Nat) (h : k < bytes.length), ∃ e ∈ s.entriesRead,
      e.toNat ≤ pa.toNat + k ∧ pa.toNat + k < e.toNat + 8 ∧ s.mem.read (pa.toNat + k) ≠ bytes[k]) →
    step s = .refused .tableChanged) ∧
  (∀ (s : State) (w : Walk) (l : Level) (b : PAddr), s.phase = .walking w → w.stage = .table l b →
    (entryAddr b (tableIndex l w.va)).toNat + 7 < 2 ^ s.cfg.paBits →
    (∃ a ∈ s.changed, inEntry (entryAddr b (tableIndex l w.va)) a = true) →
    step s = .refused .tableChanged)

/-! ### Whole-machine rules -/

/-- Every step keeps the invariant: memory's canonical form and bound, LongMode only with CR4.PAE (R14), tables stable (R104),
and the soundness of the transfer in progress. R104 is the spec's own choice (D12, log 17). -/
def Obligations.StepKeepsInvariant : Prop :=
  ∀ s t : State, s.Inv → step s = .next t → t.Inv

/-- R16: the only transition of LongMode is activation, which needs CR4.PAE = 1 and otherwise raises #GP; no step clears it. That
no other step changes LongMode is the spec's own choice (D18: "`ActivateLongMode` is the one transition"). -/
def Obligations.OnlyActivationSetsLongMode : Prop :=
  (∀ s t : State, step s = .next t → t.longMode = s.longMode ∨
    (s.longMode = false ∧ t.longMode = true ∧ s.cr4Pae = true ∧ s.phase = .idle ∧
      ∃ rest, s.requests = .activateLongMode :: rest)) ∧
  (∀ (s : State) (rest : List Request), s.phase = .idle → s.requests = .activateLongMode :: rest → s.cr4Pae = false →
    step s = .fault .gpActivation)

/-- R104: after the run's first Translate no step changes CR3, CR4.PAE or LongMode; and no step, ever, changes the parameters
or CR4.PSE. The spec's own choice (D12, log 17). -/
def Obligations.ControlStateConstantInARun : Prop :=
  ∀ s t : State, step s = .next t →
    t.cfg = s.cfg ∧ t.cr4Pse = s.cr4Pse ∧
    (s.started = true → t.started = true ∧ t.cr3 = s.cr3 ∧ t.cr4Pae = s.cr4Pae ∧ t.longMode = s.longMode)

/-- R104 over whole runs (D12): from a launch state in which no entry has been read and no byte changed, every entry that a walk of
the run has read holds, at every later moment, the value it had at launch; the accessed and dirty bits, 5 and 6, which no claim
may read of a used entry (R18, D11), are left out. -/
def Obligations.TablesConstantInARun : Prop :=
  ∀ s t : State, s.entriesRead = [] → s.changed = [] → Reaches s t →
    ∀ e ∈ t.entriesRead, ∀ i : Nat, i ≠ 5 → i ≠ 6 →
      (word64 t.mem e.toNat).getLsbD i = (word64 s.mem e.toNat).getLsbD i

/-- The walk writes no state the spec names (R6, R18, R68, R95): a step of a walk leaves parameters, CR3, CR4, LongMode,
memory, requests, results and changed bytes; only the end of a MemWrite and a PhysWrite change memory. Bits 5 and 6 of a used
entry are as in PhysMem, which says nothing of the processor's (D11, log 16). -/
def Obligations.OnlyStoresChangeMemory : Prop :=
  (∀ (s t : State) (w : Walk), s.phase = .walking w → step s = .next t →
    t = { s with started := t.started, entriesRead := t.entriesRead, phase := t.phase }) ∧
  (∀ s t : State, step s = .next t → (∃ a, t.mem.read a ≠ s.mem.read a) →
    (∃ r pas bytes, s.phase = .finishing r pas ∧ r.kind = .write bytes) ∨
    (∃ pa bytes rest, s.phase = .idle ∧ s.requests = .physWrite pa bytes :: rest))

/-- R15: CR4.PSE has no effect: with the bit set to any value a step gives the same outcome, but for that bit; PDE.PS alone selects
the page size of a PDE. -/
def Obligations.PseIsIgnored : Prop :=
  (∀ (s : State) (b : Bool), step (s.withPse b) = outcomeWithPse b (step s)) ∧
  (∀ (e : Word) (i : Instr), decodeWord .pd e = .ok i →
    ((∃ f, i = .pdePt f) ↔ e.getLsbD 7 = false) ∧ ((∃ f, i = .pde2M f) ↔ e.getLsbD 7 = true))

/-- CR3's PWT and PCD (bits 3 and 4) change no translation (R10, R11, R38, D16). The spec's own choice (D16, log 21). -/
def Obligations.CachingBitsOfCr3Ignored : Prop :=
  ∀ (s : State) (v : Word) (va : VAddr) (acc : Acc), (∀ i, i ≠ 3 → i ≠ 4 → v.getLsbD i = s.cr3.getLsbD i) →
    translateVa { s with cr3 := v } va acc = translateVa s va acc

/-- A translation is a function of the entries it reads (R68): another memory that holds the same words at those addresses gives the
same translation. -/
def Obligations.TranslationDependsOnItsEntries : Prop :=
  ∀ (s : State) (m : Memory) (va : VAddr) (acc : Acc) (t : Translation), translateVa s va acc = .ok t →
    (∀ a ∈ t.reads, word64 m a.toNat = word64 s.mem a.toNat) → translateVa { s with mem := m } va acc = .ok t

/-- The shape of a translation: four entries are read for a 4-Kbyte page, three for a 2-Mbyte page, two for a 1-Gbyte page (R68,
R71, R75); the low 12, 21 or 30 bits of the address are copied (R33); the result lies below 2^PABITS (R21); the address was
canonical (R23) and a 1-Gbyte page needs PAGE1GB (R76). -/
def Obligations.TranslationShape : Prop :=
  ∀ (s : State) (va : VAddr) (acc : Acc) (t : Translation), translateVa s va acc = .ok t →
    t.pa.toNat < 2 ^ s.cfg.paBits ∧ canonical 48 va = true ∧
    (match t.page with
      | .page4K => t.reads.length = 4 ∧ t.pa.extractLsb' 0 12 = va.extractLsb' 0 12
      | .page2M => t.reads.length = 3 ∧ t.pa.extractLsb' 0 21 = va.extractLsb' 0 21
      | .page1G => t.reads.length = 2 ∧ t.pa.extractLsb' 0 30 = va.extractLsb' 0 30 ∧ s.cfg.page1gb = true)

/-- The machine performs `Translate` of R60: from an idle state whose next request is a Translate, it answers the same physical
address after one step for the request, one for CR3, one for each entry read, one for the ending and one for the answer, having
read the same entries in the same order; or stops, within seven steps, with the same exception or refusal. The steps, and so
their numbers, are the model's cut of a Translate (DESIGN CHOICE, log 2). -/
def Obligations.MachinePerformsTranslate : Prop :=
  ∀ (s : State) (va : VAddr) (acc : Acc) (rest : List Request), s.phase = .idle →
    s.requests = .reference { va := va, acc := acc, kind := .translate } :: rest →
    (∀ t, translateVa s va acc = .ok t →
      steps (t.reads.length + 4) s = .next { s with
        requests := rest
        started := true
        entriesRead := s.entriesRead ++ t.reads
        results := s.results ++ [.translated t.pa] }) ∧
    (∀ e, translateVa s va acc = .error e → ∃ k, k ≤ 7 ∧ steps k s = e.outcome)

/-- The machine performs every reference, Translate, MemRead and MemWrite, as R36 and R60 write it: some number of steps from
the idle state gives the state, exception or refusal of the whole operation. That a reference is performed in steps is the
model's cut (DESIGN CHOICE, log 2). -/
def Obligations.MachinePerformsReferences : Prop :=
  ∀ (s : State) (r : Reference) (rest : List Request), s.phase = .idle → s.requests = .reference r :: rest →
    ∃ k, 1 ≤ k ∧ steps k s = outcomeOf (serveReference (s.setRequests rest) r)

/-! ### Added after the first review -/

/-- The request that sets CR4.PAE (R101; the request is the model's, DEDUCED, log 24): it sets the bit and nothing else of the
machine's state, before the run's first Translate or when the bit is set already; after it, with CR4.PAE = 0, it would change the bit
and is refused (R104, the spec's own choice D12, log 17). -/
def Obligations.SettingPae : Prop :=
  ∀ (s : State) (rest : List Request), s.phase = .idle → s.requests = .enablePae :: rest →
    (s.started = false ∨ s.cr4Pae = true →
      step s = .next { s with cr4Pae := true, requests := rest, results := s.results ++ [.paeEnabled] }) ∧
    (s.started = true → s.cr4Pae = false → step s = .refused .controlChanged)

/-- A MemRead or a MemWrite of no byte, under the precondition of R61, completes: the read answers with no byte, the one value of
zero bits, the write stores nothing; nothing else changes, and the run's first Translate is still to come. The spec speaks of
n >= 1 (R35): the model's choice (DESIGN CHOICE, log 22). -/
def Obligations.ReferenceOfNoByte : Prop :=
  ∀ (s : State) (va : VAddr) (acc : Acc) (rest : List Request), s.phase = .idle → precondition s = .ok () →
    (s.requests = .reference { va := va, acc := acc, kind := .read 0 } :: rest →
      steps 2 s = .next { s with requests := rest, results := s.results ++ [.bytesRead []] }) ∧
    (s.requests = .reference { va := va, acc := acc, kind := .write [] } :: rest →
      steps 2 s = .next { s with requests := rest, results := s.results ++ [.bytesWritten] })

/-- Every step keeps the record of a run (R104, the spec's own choice D12, log 17), whatever memory the run was launched with: a byte
of PhysMem that differs from its launch value is listed in `changed`, and no entry that the run has read has a byte listed there.
Bits 5 and 6 of a used entry are as in PhysMem, which says nothing of the processor's (D11, log 16). -/
def Obligations.StepKeepsRunRecord : Prop :=
  ∀ (launch : Memory) (s t : State), s.RunRecord launch → step s = .next t → t.RunRecord launch

/-- A launch state with no entry read and no byte changed meets the record of the run that it launches; the reset state is one. -/
def Obligations.LaunchMeetsRunRecord : Prop :=
  (∀ s : State, s.entriesRead = [] → s.changed = [] → s.RunRecord s.mem) ∧ State.reset.RunRecord State.reset.mem

/-- The words of a walk give its translation (R60, R62 to R66, R70, R75): a canonical address under the precondition, in a run that
has stored nothing, whose entries are present, without reserved bits, and with bases below 2^PABITS, and whose access PermCheck
allows, is translated, to the concatenation of the page's base bits and the offset, having read those entries: four, three or two.
The checks and layouts are the spec's own choices and marked general knowledge (D7 to D10, logs 12 to 15). -/
def Obligations.TranslateFollowsTheTables : Prop :=
  ∀ (s : State) (va : VAddr) (acc : Acc) (e4 e3 : Word), precondition s = .ok () → canonical 48 va = true → s.changed = [] →
    e4 = word64 s.mem (entryAddr (pml4Base s.cr3) (va.extractLsb' 39 9)).toNat →
    e3 = word64 s.mem (entryAddr (tableBase e4) (va.extractLsb' 30 9)).toNat →
    entrySound s.cfg .pml4 e4 → entrySound s.cfg .pdp e3 →
    (e3.getLsbD 7 = true →
      permits s.cfg.permCheck acc (attrOf [e4, e3]) = true →
      translateVa s va acc = .ok {
        pa := e3.extractLsb' 30 22 ++ va.extractLsb' 0 30
        page := .page1G
        reads := [entryAddr (pml4Base s.cr3) (va.extractLsb' 39 9), entryAddr (tableBase e4) (va.extractLsb' 30 9)] }) ∧
    (e3.getLsbD 7 = false → ∀ e2 : Word, e2 = word64 s.mem (entryAddr (tableBase e3) (va.extractLsb' 21 9)).toNat →
      entrySound s.cfg .pd e2 →
      (e2.getLsbD 7 = true →
        permits s.cfg.permCheck acc (attrOf [e4, e3, e2]) = true →
        translateVa s va acc = .ok {
          pa := e2.extractLsb' 21 31 ++ va.extractLsb' 0 21
          page := .page2M
          reads := [entryAddr (pml4Base s.cr3) (va.extractLsb' 39 9), entryAddr (tableBase e4) (va.extractLsb' 30 9),
            entryAddr (tableBase e3) (va.extractLsb' 21 9)] }) ∧
      (e2.getLsbD 7 = false → ∀ e1 : Word, e1 = word64 s.mem (entryAddr (tableBase e2) (va.extractLsb' 12 9)).toNat →
        entrySound s.cfg .pt e1 → permits s.cfg.permCheck acc (attrOf [e4, e3, e2, e1]) = true →
        translateVa s va acc = .ok {
          pa := e1.extractLsb' 12 40 ++ va.extractLsb' 0 12
          page := .page4K
          reads := [entryAddr (pml4Base s.cr3) (va.extractLsb' 39 9), entryAddr (tableBase e4) (va.extractLsb' 30 9),
            entryAddr (tableBase e3) (va.extractLsb' 21 9), entryAddr (tableBase e2) (va.extractLsb' 12 9)] }))
end

