-- ==== Sys2Proof/Laws/State.lean ====
section
/-! SUPPORT. One lemma per field and named update of State, so that no proof unfolds a record update. -/

namespace Sys2Proof.Machine

variable (s : State)

@[simp] theorem State.setPhase_cfg (p : Phase) : (s.setPhase p).cfg = s.cfg := rfl
@[simp] theorem State.setPhase_cr3 (p : Phase) : (s.setPhase p).cr3 = s.cr3 := rfl
@[simp] theorem State.setPhase_cr4Pae (p : Phase) : (s.setPhase p).cr4Pae = s.cr4Pae := rfl
@[simp] theorem State.setPhase_cr4Pse (p : Phase) : (s.setPhase p).cr4Pse = s.cr4Pse := rfl
@[simp] theorem State.setPhase_longMode (p : Phase) : (s.setPhase p).longMode = s.longMode := rfl
@[simp] theorem State.setPhase_mem (p : Phase) : (s.setPhase p).mem = s.mem := rfl
@[simp] theorem State.setPhase_requests (p : Phase) : (s.setPhase p).requests = s.requests := rfl
@[simp] theorem State.setPhase_results (p : Phase) : (s.setPhase p).results = s.results := rfl
@[simp] theorem State.setPhase_phase (p : Phase) : (s.setPhase p).phase = p := rfl
@[simp] theorem State.setPhase_started (p : Phase) : (s.setPhase p).started = s.started := rfl
@[simp] theorem State.setPhase_entriesRead (p : Phase) : (s.setPhase p).entriesRead = s.entriesRead := rfl
@[simp] theorem State.setPhase_changed (p : Phase) : (s.setPhase p).changed = s.changed := rfl

@[simp] theorem State.setRequests_cfg (l : List Request) : (s.setRequests l).cfg = s.cfg := rfl
@[simp] theorem State.setRequests_cr3 (l : List Request) : (s.setRequests l).cr3 = s.cr3 := rfl
@[simp] theorem State.setRequests_cr4Pae (l : List Request) : (s.setRequests l).cr4Pae = s.cr4Pae := rfl
@[simp] theorem State.setRequests_cr4Pse (l : List Request) : (s.setRequests l).cr4Pse = s.cr4Pse := rfl
@[simp] theorem State.setRequests_longMode (l : List Request) : (s.setRequests l).longMode = s.longMode := rfl
@[simp] theorem State.setRequests_mem (l : List Request) : (s.setRequests l).mem = s.mem := rfl
@[simp] theorem State.setRequests_requests (l : List Request) : (s.setRequests l).requests = l := rfl
@[simp] theorem State.setRequests_results (l : List Request) : (s.setRequests l).results = s.results := rfl
@[simp] theorem State.setRequests_phase (l : List Request) : (s.setRequests l).phase = s.phase := rfl
@[simp] theorem State.setRequests_started (l : List Request) : (s.setRequests l).started = s.started := rfl
@[simp] theorem State.setRequests_entriesRead (l : List Request) : (s.setRequests l).entriesRead = s.entriesRead := rfl
@[simp] theorem State.setRequests_changed (l : List Request) : (s.setRequests l).changed = s.changed := rfl

@[simp] theorem State.respond_cfg (l : List Response) : (s.respond l).cfg = s.cfg := rfl
@[simp] theorem State.respond_cr3 (l : List Response) : (s.respond l).cr3 = s.cr3 := rfl
@[simp] theorem State.respond_cr4Pae (l : List Response) : (s.respond l).cr4Pae = s.cr4Pae := rfl
@[simp] theorem State.respond_cr4Pse (l : List Response) : (s.respond l).cr4Pse = s.cr4Pse := rfl
@[simp] theorem State.respond_longMode (l : List Response) : (s.respond l).longMode = s.longMode := rfl
@[simp] theorem State.respond_mem (l : List Response) : (s.respond l).mem = s.mem := rfl
@[simp] theorem State.respond_requests (l : List Response) : (s.respond l).requests = s.requests := rfl
@[simp] theorem State.respond_results (l : List Response) : (s.respond l).results = s.results ++ l := rfl
@[simp] theorem State.respond_phase (l : List Response) : (s.respond l).phase = s.phase := rfl
@[simp] theorem State.respond_started (l : List Response) : (s.respond l).started = s.started := rfl
@[simp] theorem State.respond_entriesRead (l : List Response) : (s.respond l).entriesRead = s.entriesRead := rfl
@[simp] theorem State.respond_changed (l : List Response) : (s.respond l).changed = s.changed := rfl

@[simp] theorem State.noteRead_cfg (l : List PAddr) : (s.noteRead l).cfg = s.cfg := rfl
@[simp] theorem State.noteRead_cr3 (l : List PAddr) : (s.noteRead l).cr3 = s.cr3 := rfl
@[simp] theorem State.noteRead_cr4Pae (l : List PAddr) : (s.noteRead l).cr4Pae = s.cr4Pae := rfl
@[simp] theorem State.noteRead_cr4Pse (l : List PAddr) : (s.noteRead l).cr4Pse = s.cr4Pse := rfl
@[simp] theorem State.noteRead_longMode (l : List PAddr) : (s.noteRead l).longMode = s.longMode := rfl
@[simp] theorem State.noteRead_mem (l : List PAddr) : (s.noteRead l).mem = s.mem := rfl
@[simp] theorem State.noteRead_requests (l : List PAddr) : (s.noteRead l).requests = s.requests := rfl
@[simp] theorem State.noteRead_results (l : List PAddr) : (s.noteRead l).results = s.results := rfl
@[simp] theorem State.noteRead_phase (l : List PAddr) : (s.noteRead l).phase = s.phase := rfl
@[simp] theorem State.noteRead_started (l : List PAddr) : (s.noteRead l).started = s.started := rfl
@[simp] theorem State.noteRead_entriesRead (l : List PAddr) : (s.noteRead l).entriesRead = s.entriesRead ++ l := rfl
@[simp] theorem State.noteRead_changed (l : List PAddr) : (s.noteRead l).changed = s.changed := rfl

@[simp] theorem State.noteChanged_cfg (a : PAddr) : (s.noteChanged a).cfg = s.cfg := rfl
@[simp] theorem State.noteChanged_cr3 (a : PAddr) : (s.noteChanged a).cr3 = s.cr3 := rfl
@[simp] theorem State.noteChanged_cr4Pae (a : PAddr) : (s.noteChanged a).cr4Pae = s.cr4Pae := rfl
@[simp] theorem State.noteChanged_cr4Pse (a : PAddr) : (s.noteChanged a).cr4Pse = s.cr4Pse := rfl
@[simp] theorem State.noteChanged_longMode (a : PAddr) : (s.noteChanged a).longMode = s.longMode := rfl
@[simp] theorem State.noteChanged_mem (a : PAddr) : (s.noteChanged a).mem = s.mem := rfl
@[simp] theorem State.noteChanged_requests (a : PAddr) : (s.noteChanged a).requests = s.requests := rfl
@[simp] theorem State.noteChanged_results (a : PAddr) : (s.noteChanged a).results = s.results := rfl
@[simp] theorem State.noteChanged_phase (a : PAddr) : (s.noteChanged a).phase = s.phase := rfl
@[simp] theorem State.noteChanged_started (a : PAddr) : (s.noteChanged a).started = s.started := rfl
@[simp] theorem State.noteChanged_entriesRead (a : PAddr) : (s.noteChanged a).entriesRead = s.entriesRead := rfl
@[simp] theorem State.noteChanged_changed (a : PAddr) : (s.noteChanged a).changed = s.changed ++ [a] := rfl

@[simp] theorem State.setStarted_cfg : (s.setStarted).cfg = s.cfg := rfl
@[simp] theorem State.setStarted_cr3 : (s.setStarted).cr3 = s.cr3 := rfl
@[simp] theorem State.setStarted_cr4Pae : (s.setStarted).cr4Pae = s.cr4Pae := rfl
@[simp] theorem State.setStarted_cr4Pse : (s.setStarted).cr4Pse = s.cr4Pse := rfl
@[simp] theorem State.setStarted_longMode : (s.setStarted).longMode = s.longMode := rfl
@[simp] theorem State.setStarted_mem : (s.setStarted).mem = s.mem := rfl
@[simp] theorem State.setStarted_requests : (s.setStarted).requests = s.requests := rfl
@[simp] theorem State.setStarted_results : (s.setStarted).results = s.results := rfl
@[simp] theorem State.setStarted_phase : (s.setStarted).phase = s.phase := rfl
@[simp] theorem State.setStarted_started : (s.setStarted).started = true := rfl
@[simp] theorem State.setStarted_entriesRead : (s.setStarted).entriesRead = s.entriesRead := rfl
@[simp] theorem State.setStarted_changed : (s.setStarted).changed = s.changed := rfl

@[simp] theorem State.setMem_cfg (m : Memory) : (s.setMem m).cfg = s.cfg := rfl
@[simp] theorem State.setMem_cr3 (m : Memory) : (s.setMem m).cr3 = s.cr3 := rfl
@[simp] theorem State.setMem_cr4Pae (m : Memory) : (s.setMem m).cr4Pae = s.cr4Pae := rfl
@[simp] theorem State.setMem_cr4Pse (m : Memory) : (s.setMem m).cr4Pse = s.cr4Pse := rfl
@[simp] theorem State.setMem_longMode (m : Memory) : (s.setMem m).longMode = s.longMode := rfl
@[simp] theorem State.setMem_mem (m : Memory) : (s.setMem m).mem = m := rfl
@[simp] theorem State.setMem_requests (m : Memory) : (s.setMem m).requests = s.requests := rfl
@[simp] theorem State.setMem_results (m : Memory) : (s.setMem m).results = s.results := rfl
@[simp] theorem State.setMem_phase (m : Memory) : (s.setMem m).phase = s.phase := rfl
@[simp] theorem State.setMem_started (m : Memory) : (s.setMem m).started = s.started := rfl
@[simp] theorem State.setMem_entriesRead (m : Memory) : (s.setMem m).entriesRead = s.entriesRead := rfl
@[simp] theorem State.setMem_changed (m : Memory) : (s.setMem m).changed = s.changed := rfl

@[simp] theorem State.setCr3_cfg (v : Word) : (s.setCr3 v).cfg = s.cfg := rfl
@[simp] theorem State.setCr3_cr3 (v : Word) : (s.setCr3 v).cr3 = v := rfl
@[simp] theorem State.setCr3_cr4Pae (v : Word) : (s.setCr3 v).cr4Pae = s.cr4Pae := rfl
@[simp] theorem State.setCr3_cr4Pse (v : Word) : (s.setCr3 v).cr4Pse = s.cr4Pse := rfl
@[simp] theorem State.setCr3_longMode (v : Word) : (s.setCr3 v).longMode = s.longMode := rfl
@[simp] theorem State.setCr3_mem (v : Word) : (s.setCr3 v).mem = s.mem := rfl
@[simp] theorem State.setCr3_requests (v : Word) : (s.setCr3 v).requests = s.requests := rfl
@[simp] theorem State.setCr3_results (v : Word) : (s.setCr3 v).results = s.results := rfl
@[simp] theorem State.setCr3_phase (v : Word) : (s.setCr3 v).phase = s.phase := rfl
@[simp] theorem State.setCr3_started (v : Word) : (s.setCr3 v).started = s.started := rfl
@[simp] theorem State.setCr3_entriesRead (v : Word) : (s.setCr3 v).entriesRead = s.entriesRead := rfl
@[simp] theorem State.setCr3_changed (v : Word) : (s.setCr3 v).changed = s.changed := rfl

@[simp] theorem State.setCr4Pae_cfg : (s.setCr4Pae).cfg = s.cfg := rfl
@[simp] theorem State.setCr4Pae_cr3 : (s.setCr4Pae).cr3 = s.cr3 := rfl
@[simp] theorem State.setCr4Pae_cr4Pae : (s.setCr4Pae).cr4Pae = true := rfl
@[simp] theorem State.setCr4Pae_cr4Pse : (s.setCr4Pae).cr4Pse = s.cr4Pse := rfl
@[simp] theorem State.setCr4Pae_longMode : (s.setCr4Pae).longMode = s.longMode := rfl
@[simp] theorem State.setCr4Pae_mem : (s.setCr4Pae).mem = s.mem := rfl
@[simp] theorem State.setCr4Pae_requests : (s.setCr4Pae).requests = s.requests := rfl
@[simp] theorem State.setCr4Pae_results : (s.setCr4Pae).results = s.results := rfl
@[simp] theorem State.setCr4Pae_phase : (s.setCr4Pae).phase = s.phase := rfl
@[simp] theorem State.setCr4Pae_started : (s.setCr4Pae).started = s.started := rfl
@[simp] theorem State.setCr4Pae_entriesRead : (s.setCr4Pae).entriesRead = s.entriesRead := rfl
@[simp] theorem State.setCr4Pae_changed : (s.setCr4Pae).changed = s.changed := rfl

@[simp] theorem State.setLongMode_cfg : (s.setLongMode).cfg = s.cfg := rfl
@[simp] theorem State.setLongMode_cr3 : (s.setLongMode).cr3 = s.cr3 := rfl
@[simp] theorem State.setLongMode_cr4Pae : (s.setLongMode).cr4Pae = s.cr4Pae := rfl
@[simp] theorem State.setLongMode_cr4Pse : (s.setLongMode).cr4Pse = s.cr4Pse := rfl
@[simp] theorem State.setLongMode_longMode : (s.setLongMode).longMode = true := rfl
@[simp] theorem State.setLongMode_mem : (s.setLongMode).mem = s.mem := rfl
@[simp] theorem State.setLongMode_requests : (s.setLongMode).requests = s.requests := rfl
@[simp] theorem State.setLongMode_results : (s.setLongMode).results = s.results := rfl
@[simp] theorem State.setLongMode_phase : (s.setLongMode).phase = s.phase := rfl
@[simp] theorem State.setLongMode_started : (s.setLongMode).started = s.started := rfl
@[simp] theorem State.setLongMode_entriesRead : (s.setLongMode).entriesRead = s.entriesRead := rfl
@[simp] theorem State.setLongMode_changed : (s.setLongMode).changed = s.changed := rfl

end Sys2Proof.Machine
end

