-- ==== Sys2Proof/Laws/Checks.lean ====
section
/-! SUPPORT. When each check of a reference lets it go on, as one equivalence each. -/

namespace Sys2Proof.Machine

@[simp] theorem guardStop_ok_iff (bad : Bool) (stop : Stop) (u : Unit) : guardStop bad stop = .ok u ↔ bad = false := by
  cases bad <;> simp [guardStop]

theorem guardStop_error_iff (bad : Bool) (stop e : Stop) : guardStop bad stop = .error e ↔ bad = true ∧ e = stop := by
  cases bad <;> simp [guardStop, eq_comm]

/-- A sequence of two checks passes when both do. -/
theorem bind_unit_ok_iff {α : Type} (x : Except Stop Unit) (f : Unit → Except Stop α) (a : α) :
    (x >>= f) = .ok a ↔ x = .ok () ∧ f () = .ok a := by
  cases x <;> simp [bind, Except.bind]

/-- A value passed on: both parts succeed. -/
theorem bind_ok_iff {α β : Type} (x : Except Stop α) (f : α → Except Stop β) (b : β) :
    (x >>= f) = .ok b ↔ ∃ a, x = .ok a ∧ f a = .ok b := by
  cases x <;> simp [bind, Except.bind]

theorem checkMode_ok_iff (s : State) :
    checkMode s = .ok () ↔ s.longMode = true ∧ s.cr4Pae = true ∧ s.cfg.vaBits = 48 := by
  simp [checkMode, bind_unit_ok_iff, and_assoc]

theorem checkCr3_ok_iff (c : Config) (v : Word) :
    checkCr3 c v = .ok () ↔ cr3ReservedClear v = true ∧ beyondPabits c (pml4Base v) = false := by
  simp [checkCr3, bind_unit_ok_iff]

theorem precondition_ok_iff (s : State) :
    precondition s = .ok () ↔ (s.longMode = true ∧ s.cr4Pae = true ∧ s.cfg.vaBits = 48) ∧
      cr3ReservedClear s.cr3 = true ∧ beyondPabits s.cfg (pml4Base s.cr3) = false := by
  simp only [precondition, bind_unit_ok_iff, checkMode_ok_iff, checkCr3_ok_iff]

theorem checkReference_ok_iff (s : State) (r : Reference) :
    checkReference s r = .ok () ↔ precondition s = .ok () ∧ r.wraps = false ∧
      allCanonical s.cfg.vaBits r = true := by
  simp [checkReference, bind_unit_ok_iff]

theorem checkPhys_ok_iff (c : Config) (pa : PAddr) (n : Nat) :
    checkPhys c pa n = .ok () ↔ pa.toNat + n - 1 < 2 ^ c.paBits := by
  simp [checkPhys, bind_unit_ok_iff]

theorem readEntry_ok_iff (s : State) (pa : PAddr) (e : Word) :
    readEntry s pa = .ok e ↔ pa.toNat + 7 < 2 ^ s.cfg.paBits ∧ s.changed.any (inEntry pa) = false ∧
      e = word64 s.mem pa.toNat := by
  have h : (Except.ok (word64 s.mem pa.toNat) : Except Stop Word) = .ok e ↔ e = word64 s.mem pa.toNat :=
    ⟨fun h => (Except.ok.inj h).symm, fun h => h ▸ rfl⟩
  simp only [readEntry, bind_unit_ok_iff, guardStop_ok_iff, pure, Except.pure, h, decide_eq_false_iff_not, Nat.not_le]

@[simp] theorem afterTranslates_nil (s : State) : afterTranslates s [] = s := by
  simp [afterTranslates, State.noteRead]

@[simp] theorem afterTranslates_cons (s : State) (t : Translation) (ts : List Translation) :
    afterTranslates s (t :: ts) = s.setStarted.noteRead (t.reads ++ ts.flatMap (·.reads)) := by
  simp [afterTranslates]

/-- A single-byte reference is checked as R60 checks its address. -/
theorem allCanonical_one (vaBits : Nat) (r : Reference) (h : r.size = 1) :
    allCanonical vaBits r = canonical vaBits (r.byteVa 0) := by
  simp [allCanonical, h, List.range_succ]

theorem byteVa_zero (r : Reference) : r.byteVa 0 = r.va := by simp [Reference.byteVa]

theorem canonical_of_allCanonical {vaBits : Nat} {r : Reference} (h : allCanonical vaBits r = true) {k : Nat}
    (hk : k < r.size) : canonical vaBits (r.byteVa k) = true := by
  simp only [allCanonical, List.all_eq_true, List.mem_range] at h
  exact h k hk

end Sys2Proof.Machine
end

