-- ==== Sys2Proof/Laws/Memory.lean ====
section
/-! SUPPORT. What reading, writing and the canonical form of physical memory say of one another. -/

namespace Sys2Proof.Machine

namespace Memory

@[simp] theorem read_nil (a : Nat) : Memory.read [] a = unlistedByte := rfl

theorem read_cons (a' : Nat) (b : Byte) (m : Memory) (a : Nat) :
    Memory.read ((a', b) :: m) a = if a' = a then b else Memory.read m a := rfl

theorem wfFrom_cons {lo a : Nat} {b : Byte} {m : Memory} :
    wfFrom lo ((a, b) :: m) = true ↔ lo ≤ a ∧ b ≠ unlistedByte ∧ wfFrom (a + 1) m = true := by
  simp [wfFrom, and_assoc]

theorem wfFrom_mono {lo lo' : Nat} {m : Memory} (hl : lo' ≤ lo) (h : wfFrom lo m = true) : wfFrom lo' m = true := by
  cases m with
  | nil => rfl
  | cons c m =>
    obtain ⟨a, b⟩ := c
    rw [wfFrom_cons] at h ⊢
    exact ⟨by omega, h.2⟩

/-- Below the first address nothing is listed. -/
theorem read_of_lt {m : Memory} : ∀ {lo a : Nat}, wfFrom lo m = true → a < lo → m.read a = unlistedByte := by
  induction m with
  | nil => intros; rfl
  | cons c m ih =>
    intro lo a h ha
    obtain ⟨a', b⟩ := c
    rw [wfFrom_cons] at h
    rw [read_cons, if_neg (by omega)]
    exact ih h.2.2 (by omega)

theorem read_write_other (m : Memory) {a a' : Nat} (b : Byte) (h : a' ≠ a) : (m.write a b).read a' = m.read a' := by
  induction m with
  | nil =>
    by_cases hb : b = unlistedByte
    · simp [write, hb]
    · simp [write, hb, read_cons, Ne.symm h]
  | cons c m ih =>
    obtain ⟨x, y⟩ := c
    by_cases h1 : x < a
    · simp [write, h1, read_cons, ih]
    · by_cases h2 : x = a
      · subst h2
        by_cases hb : b = unlistedByte <;> simp [write, hb, read_cons, Ne.symm h]
      · by_cases hb : b = unlistedByte <;> simp [write, h1, h2, hb, read_cons, Ne.symm h]

theorem read_write_same {m : Memory} : ∀ {lo a : Nat}, wfFrom lo m = true → ∀ b : Byte, (m.write a b).read a = b := by
  induction m with
  | nil =>
    intro lo a _ b
    by_cases hb : b = unlistedByte <;> simp [write, hb, read_cons]
  | cons c m ih =>
    intro lo a h b
    obtain ⟨x, y⟩ := c
    rw [wfFrom_cons] at h
    by_cases h1 : x < a
    · simp [write, h1, read_cons, Nat.ne_of_lt h1, ih h.2.2]
    · by_cases h2 : x = a
      · subst h2
        by_cases hb : b = unlistedByte
        · simp [write, hb, read_of_lt h.2.2 (Nat.lt_succ_self x)]
        · simp [write, hb, read_cons]
      · by_cases hb : b = unlistedByte
        · simp [write, h1, h2, hb, read_cons, read_of_lt h.2.2 (show a < x + 1 by omega)]
        · simp [write, h1, h2, hb, read_cons]

theorem wfFrom_write {m : Memory} :
    ∀ {lo a : Nat}, wfFrom lo m = true → lo ≤ a → ∀ b : Byte, wfFrom lo (m.write a b) = true := by
  induction m with
  | nil =>
    intro lo a _ hl b
    by_cases hb : b = unlistedByte
    · simp [write, hb, wfFrom]
    · simp [write, hb, wfFrom, hl]
  | cons c m ih =>
    intro lo a h hl b
    obtain ⟨x, y⟩ := c
    have h' := h
    rw [wfFrom_cons] at h
    by_cases h1 : x < a
    · simp only [write, h1, if_true]
      exact wfFrom_cons.2 ⟨h.1, h.2.1, ih h.2.2 (by omega) b⟩
    · by_cases h2 : x = a
      · subst h2
        by_cases hb : b = unlistedByte
        · simpa [write, hb] using wfFrom_mono (by omega) h.2.2
        · simpa [write, hb] using wfFrom_cons.2 ⟨hl, hb, h.2.2⟩
      · by_cases hb : b = unlistedByte
        · simpa [write, h1, h2, hb] using h'
        · simpa [write, h1, h2, hb] using wfFrom_cons.2 ⟨hl, hb, wfFrom_cons.2 ⟨by omega, h.2.1, h.2.2⟩⟩

/-- A write keeps the canonical form. -/
theorem wf_write {m : Memory} (h : m.wf = true) (a : Nat) (b : Byte) : (m.write a b).wf = true :=
  wfFrom_write h (Nat.zero_le a) b

/-- In canonical form, what is written is read. -/
theorem read_write {m : Memory} (h : m.wf = true) (a : Nat) (b : Byte) (a' : Nat) :
    (m.write a b).read a' = if a' = a then b else m.read a' := by
  by_cases h1 : a' = a
  · subst h1; simp [read_write_same h]
  · simp [h1, read_write_other m b h1]

theorem within_write {m : Memory} {n a : Nat} (h : m.within n = true) (ha : a < n) (b : Byte) :
    (m.write a b).within n = true := by
  induction m with
  | nil => by_cases hb : b = unlistedByte <;> simp [write, hb, within, ha]
  | cons c m ih =>
    obtain ⟨x, y⟩ := c
    simp only [within, List.all_cons, Bool.and_eq_true, decide_eq_true_eq] at h ih ⊢
    by_cases h1 : x < a
    · simpa [write, h1, h.1] using ih h.2
    · by_cases h2 : x = a
      · subst h2
        by_cases hb : b = unlistedByte
        · simpa [write, hb] using h.2
        · simpa [write, hb, ha] using h.2
      · by_cases hb : b = unlistedByte
        · simpa [write, h1, h2, hb, h.1] using h.2
        · simpa [write, h1, h2, hb, ha, h.1] using h.2

theorem wf_writeBytes {m : Memory} (h : m.wf = true) (bs : List Byte) : ∀ a : Nat, (m.writeBytes a bs).wf = true := by
  induction bs generalizing m with
  | nil => intro _; exact h
  | cons b bs ih => intro a; exact ih (wf_write h a b) (a + 1)

/-- Bytes stored from `a` up leave every byte below `a` alone. -/
theorem read_writeBytes_lt (m : Memory) (bs : List Byte) :
    ∀ {a a' : Nat}, a' < a → (m.writeBytes a bs).read a' = m.read a' := by
  induction bs generalizing m with
  | nil => intros; rfl
  | cons b bs ih =>
    intro a a' h
    rw [writeBytes, ih _ (Nat.lt_succ_of_lt h), read_write_other _ _ (Nat.ne_of_lt h)]

/-- Equal reads of canonical memories make equal data. -/
theorem ext_of_read {m : Memory} :
    ∀ {m' : Memory} {lo : Nat}, wfFrom lo m = true → wfFrom lo m' = true → (∀ a, m.read a = m'.read a) → m = m' := by
  induction m with
  | nil =>
    intro m' lo _ h' hr
    cases m' with
    | nil => rfl
    | cons c m' =>
      obtain ⟨x, y⟩ := c
      rw [wfFrom_cons] at h'
      have := hr x
      simp [read_cons] at this
      exact absurd this.symm h'.2.1
  | cons c m ih =>
    intro m' lo h h' hr
    obtain ⟨x, y⟩ := c
    rw [wfFrom_cons] at h
    cases m' with
    | nil =>
      have := hr x
      simp [read_cons] at this
      exact absurd this h.2.1
    | cons c' m' =>
      obtain ⟨x', y'⟩ := c'
      rw [wfFrom_cons] at h'
      have hx : x = x' := by
        rcases Nat.lt_trichotomy x x' with hlt | heq | hgt
        · have := hr x
          rw [read_cons, if_pos rfl, read_cons, if_neg (by omega), read_of_lt h'.2.2 (by omega)] at this
          exact absurd this h.2.1
        · exact heq
        · have := hr x'
          rw [read_cons, if_neg (by omega), read_cons, if_pos rfl, read_of_lt h.2.2 (by omega)] at this
          exact absurd this.symm h'.2.1
      subst hx
      have hy : y = y' := by simpa [read_cons] using hr x
      subst hy
      have htail : m = m' := by
        refine ih h.2.2 h'.2.2 fun a => ?_
        by_cases ha : x = a
        · subst ha
          rw [read_of_lt h.2.2 (Nat.lt_succ_self _), read_of_lt h'.2.2 (Nat.lt_succ_self _)]
        · simpa [read_cons, ha] using hr a
      rw [htail]

end Memory

end Sys2Proof.Machine
end

