-- ==== Sys2Proof/Laws/Ops.lean ====
section
/-! SUPPORT. For each shared operation, one lemma that says everything it does when it goes on. -/

namespace Sys2Proof.Machine

/-- The state after an entry of a table at `b` has been used. -/
def afterEntry (w : Walk) (l : Level) (b : PAddr) (rw us nx : Bool) (next : Stage) (s : State) : State :=
  (s.noteRead [entryAddr b (tableIndex l w.va)]).setPhase (.walking { w with attr := meet w.attr rw us nx, stage := next })

theorem useEntry_next_iff (level : Level) (base : PAddr) (rw us nx : Bool) (next : Stage) (s t : State) :
    useEntry level base rw us nx next s = .next t ↔
      ∃ w b, s.phase = .walking w ∧ w.stage = .table level b ∧ beyondPabits s.cfg base = false ∧
        t = afterEntry w level b rw us nx next s := by
  unfold useEntry afterEntry
  constructor
  · intro h
    split at h
    · rename_i w hw
      split at h
      · rename_i l b hs
        split at h
        · rename_i hl
          split at h
          · cases h
          · rename_i hb
            subst hl
            exact ⟨w, b, hw, hs, by simpa using hb, (Host.Outcome.next.inj h).symm⟩
        · cases h
      · cases h
    · cases h
  · rintro ⟨w, b, hw, hs, hb, rfl⟩
    simp [hw, hs, hb]

theorem endByte_next_iff (level : Level) (w : Walk) (pa : PAddr) (s t : State) :
    endByte level w pa s = .next t ↔
      permits s.cfg.permCheck w.ref.acc w.attr = true ∧ beyondPabits s.cfg pa = false ∧
        t = s.setPhase (afterByte w pa) := by
  unfold endByte raise
  split
  · rename_i h
    split
    · rename_i h'; simp [h']
    · rename_i h'; simp [h, h', eq_comm]
  · rename_i h; simp [h]

theorem storeByte_ok_iff (pa : PAddr) (b : Byte) (s t : State) :
    storeByte pa b s = .ok t ↔
      (s.mem.read pa.toNat = b ∧ t = s) ∨
      (s.mem.read pa.toNat ≠ b ∧ (s.entriesRead.any fun e => inEntry e pa) = false ∧
        t = (s.setMem (s.mem.write pa.toNat b)).noteChanged pa) := by
  unfold storeByte
  by_cases h : s.mem.read pa.toNat = b
  · simp only [h, if_true, Except.ok.injEq, true_and, ne_eq, not_true_eq_false, false_and, or_false, eq_comm (a := t)]
  · cases h' : s.entriesRead.any fun e => inEntry e pa <;>
      simp [h, eq_comm (a := t)]

/-- What stores keep: everything but memory and the list of changed bytes. -/
theorem storeBytes_frame (l : List (PAddr × Byte)) :
    ∀ {s t : State}, storeBytes l s = .ok t → t = { s with mem := t.mem, changed := t.changed } := by
  induction l with
  | nil => intro s t h; cases h; rfl
  | cons c l ih =>
    intro s t h
    obtain ⟨pa, b⟩ := c
    rw [storeBytes] at h
    split at h
    · cases h
    · rename_i s' hs
      have := ih h
      rcases (storeByte_ok_iff pa b s s').1 hs with ⟨_, rfl⟩ | ⟨_, _, rfl⟩
      · exact this
      · rw [this]; rfl

/-- Stores leave every byte outside their addresses as it was. -/
theorem storeBytes_read_other (l : List (PAddr × Byte)) :
    ∀ {s t : State}, storeBytes l s = .ok t → ∀ a : Nat, (∀ c ∈ l, c.1.toNat ≠ a) → t.mem.read a = s.mem.read a := by
  induction l with
  | nil => intro s t h a _; cases h; rfl
  | cons c l ih =>
    intro s t h a ha
    obtain ⟨pa, b⟩ := c
    rw [storeBytes] at h
    split at h
    · cases h
    · rename_i s' hs
      rw [ih h a fun c hc => ha c (List.mem_cons_of_mem _ hc)]
      rcases (storeByte_ok_iff pa b s s').1 hs with ⟨_, rfl⟩ | ⟨_, _, rfl⟩
      · rfl
      · have hne : pa.toNat ≠ a := ha (pa, b) (List.mem_cons_self ..)
        simp [Memory.read_write_other _ _ (Ne.symm hne)]

/-- Stores keep the canonical form and the bound of memory. -/
theorem storeBytes_memory (l : List (PAddr × Byte)) (n : Nat) :
    ∀ {s t : State}, storeBytes l s = .ok t → (∀ c ∈ l, c.1.toNat < n) → s.mem.wf = true → s.mem.within n = true →
      t.mem.wf = true ∧ t.mem.within n = true := by
  induction l with
  | nil => intro s t h _ hw hn; cases h; exact ⟨hw, hn⟩
  | cons c l ih =>
    intro s t h hl hw hn
    obtain ⟨pa, b⟩ := c
    rw [storeBytes] at h
    split at h
    · cases h
    · rename_i s' hs
      have hl' : ∀ c ∈ l, c.1.toNat < n := fun c hc => hl c (List.mem_cons_of_mem _ hc)
      rcases (storeByte_ok_iff pa b s s').1 hs with ⟨_, rfl⟩ | ⟨_, _, rfl⟩
      · exact ih h hl' hw hn
      · exact ih h hl' (by simpa using Memory.wf_write hw _ b)
          (by simpa using Memory.within_write hn (hl (pa, b) (List.mem_cons_self ..)) b)

/-- Stores keep the tables of the run stable: no byte they change lies in an entry the run has read. -/
theorem storeBytes_stable (l : List (PAddr × Byte)) :
    ∀ {s t : State}, storeBytes l s = .ok t → (∀ e ∈ s.entriesRead, ∀ a ∈ s.changed, inEntry e a = false) →
      ∀ e ∈ t.entriesRead, ∀ a ∈ t.changed, inEntry e a = false := by
  induction l with
  | nil => intro s t h hs; cases h; exact hs
  | cons c l ih =>
    intro s t h hst
    obtain ⟨pa, b⟩ := c
    rw [storeBytes] at h
    split at h
    · cases h
    · rename_i s' hs
      refine ih h ?_
      rcases (storeByte_ok_iff pa b s s').1 hs with ⟨_, rfl⟩ | ⟨_, hno, rfl⟩
      · exact hst
      · intro e he a ha
        simp only [State.noteChanged_entriesRead, State.setMem_entriesRead] at he
        simp only [State.noteChanged_changed, State.setMem_changed, List.mem_append, List.mem_singleton] at ha
        rcases ha with ha | rfl
        · exact hst e he a ha
        · simp only [List.any_eq_false] at hno
          exact Bool.eq_false_iff.2 (hno e he)

/-- A store to an entry that the run has read changes none of its bytes. -/
theorem storeBytes_entry (l : List (PAddr × Byte)) :
    ∀ {s t : State}, storeBytes l s = .ok t → ∀ e ∈ s.entriesRead, ∀ a : PAddr, inEntry e a = true →
      t.mem.read a.toNat = s.mem.read a.toNat := by
  induction l with
  | nil => intro s t h; cases h; intros; rfl
  | cons c l ih =>
    intro s t h e he a ha
    obtain ⟨pa, b⟩ := c
    rw [storeBytes] at h
    split at h
    · cases h
    · rename_i s' hs
      rcases (storeByte_ok_iff pa b s s').1 hs with ⟨_, rfl⟩ | ⟨_, hno, rfl⟩
      · exact ih h e he a ha
      · rw [ih h e (by simpa using he) a ha]
        have hne : pa ≠ a := by
          rintro rfl
          simp only [List.any_eq_false] at hno
          exact hno e he ha
        have : a.toNat ≠ pa.toNat := fun hc => hne (BitVec.eq_of_toNat_eq hc.symm)
        simp [Memory.read_write_other _ _ this]

/-- When stores go on: no byte of an entry that the run has read is changed (R104). -/
theorem storeBytes_completes (l : List (PAddr × Byte)) : ∀ s : State,
    (∀ c ∈ l, ∀ e ∈ s.entriesRead, inEntry e c.1 = true → s.mem.read c.1.toNat = c.2) → ∃ t, storeBytes l s = .ok t := by
  induction l with
  | nil => exact fun s _ => ⟨s, rfl⟩
  | cons c l ih =>
    obtain ⟨pa, b⟩ := c
    intro s h
    have hl : ∀ c ∈ l, ∀ e ∈ s.entriesRead, inEntry e c.1 = true → s.mem.read c.1.toNat = c.2 :=
      fun c hc => h c (List.mem_cons_of_mem _ hc)
    by_cases hb : s.mem.read pa.toNat = b
    · simpa [storeBytes, storeByte, hb] using ih s hl
    · have hno : ∀ e ∈ s.entriesRead, inEntry e pa = false := fun e he =>
        Bool.eq_false_iff.2 fun hin => hb (h _ List.mem_cons_self e he hin)
      have hany : (s.entriesRead.any fun e => inEntry e pa) = false := by simpa [List.any_eq_false] using hno
      obtain ⟨t, ht⟩ := ih ((s.setMem (s.mem.write pa.toNat b)).noteChanged pa) (by
        intro c hc e he hin
        have hne : c.1.toNat ≠ pa.toNat := by
          intro hh
          rw [BitVec.eq_of_toNat_eq hh] at hin
          simp [hno e he] at hin
        simpa [Memory.read_write_other _ _ hne] using hl c hc e he hin)
      exact ⟨t, by simp [storeBytes, storeByte, hb, hany, ht]⟩

/-- What stores add to the list of changed bytes. -/
theorem storeBytes_changed (l : List (PAddr × Byte)) : ∀ {s t : State}, s.mem.wf = true → storeBytes l s = .ok t →
    ∃ d, t.changed = s.changed ++ d ∧ (∀ a, a ∈ d ↔ ∃ c ∈ l, c.1 = a ∧ s.mem.read a.toNat ≠ c.2) ∧
      ((l.map Prod.fst).Nodup → d = bytesToChange s.mem l) := by
  induction l with
  | nil => intro s t _ h; cases h; exact ⟨[], by simp, by simp, fun _ => rfl⟩
  | cons c l ih =>
    obtain ⟨pa, b⟩ := c
    intro s t wf h
    rw [storeBytes] at h
    split at h
    · cases h
    rename_i s' hs
    rcases (storeByte_ok_iff pa b s s').1 hs with ⟨hb, rfl⟩ | ⟨hb, -, rfl⟩
    · obtain ⟨d, h1, h2, h3⟩ := ih wf h
      refine ⟨d, h1, fun a => ?_, fun hn => ?_⟩
      · rw [h2]
        constructor
        · rintro ⟨c, hc, h⟩; exact ⟨c, List.mem_cons_of_mem _ hc, h⟩
        · rintro ⟨c, hc, rfl, hne⟩
          rcases List.mem_cons.1 hc with rfl | hc
          · exact absurd hb hne
          · exact ⟨c, hc, rfl, hne⟩
      · rw [h3 (List.nodup_cons.1 hn).2]; simp [bytesToChange, hb]
    · obtain ⟨d, h1, h2, h3⟩ := ih (Memory.wf_write wf _ _) h
      refine ⟨pa :: d, by simpa using h1, fun a => ?_, fun hn => ?_⟩
      · simp only [List.mem_cons, h2]
        constructor
        · rintro (rfl | ⟨c, hc, rfl, hne⟩)
          · exact ⟨_, .inl rfl, rfl, hb⟩
          · by_cases hp : c.1 = pa
            · exact ⟨(pa, b), .inl rfl, hp.symm, by rw [hp]; exact hb⟩
            · exact ⟨c, .inr hc, rfl, by
                have : c.1.toNat ≠ pa.toNat := fun hh => hp (BitVec.eq_of_toNat_eq hh)
                simpa [Memory.read_write_other _ _ this] using hne⟩
        · rintro ⟨c, rfl | hc, rfl, hne⟩
          · exact .inl rfl
          · by_cases hp : c.1 = pa
            · exact .inl hp
            · refine .inr ⟨c, hc, rfl, ?_⟩
              have : c.1.toNat ≠ pa.toNat := fun hh => hp (BitVec.eq_of_toNat_eq hh)
              simpa [Memory.read_write_other _ _ this] using hne
      · obtain ⟨hnot, hnd⟩ := List.nodup_cons.1 hn
        rw [h3 hnd]
        simp only [bytesToChange, List.filter_cons, bne_iff_ne, ne_eq, hb, not_false_eq_true, if_true, List.map_cons]
        congr 2
        apply List.filter_congr
        intro c hc
        have : c.1.toNat ≠ pa.toNat := by
          intro hh
          exact hnot (List.mem_map.2 ⟨c, hc, BitVec.eq_of_toNat_eq hh⟩)
        simp [Memory.read_write_other _ _ this]

theorem answer_ok_iff (r : Reference) (pas : List PAddr) (s t : State) :
    answer r pas s = .ok t ↔
      (r.kind = .translate ∧ t = s.respond (pas.map .translated)) ∨
      (∃ n, r.kind = .read n ∧ t = s.respond [.bytesRead (pas.map fun pa => s.mem.read pa.toNat)]) ∨
      (∃ bytes u, r.kind = .write bytes ∧ storeBytes (pas.zip bytes) s = .ok u ∧ t = u.respond [.bytesWritten]) := by
  unfold answer
  cases r.kind with
  | translate => simp [eq_comm]
  | read n => simp [eq_comm]
  | write bytes =>
    cases h : storeBytes (pas.zip bytes) s <;> simp [h, eq_comm (a := t)]

theorem outcomeOf_next_iff (x : Except Stop State) (t : State) : outcomeOf x = .next t ↔ x = .ok t := by
  cases x with
  | ok s => simp [outcomeOf]
  | error e => cases e <;> simp [outcomeOf, Stop.outcome, raise]

@[simp] theorem stop_outcome_ne_next (e : Stop) (t : State) : e.outcome ≠ .next t := by
  cases e <;> simp [Stop.outcome, raise]

theorem firstPhase_of_pos {r : Reference} (h : r.size ≠ 0) : firstPhase r = .walking (firstByte r) := if_neg h

theorem firstPhase_of_none {r : Reference} (h : r.size = 0) : firstPhase r = .finishing r [] := if_pos h

theorem beginReference_next_iff (r : Reference) (s t : State) :
    beginReference r s = .next t ↔ checkReference s r = .ok () ∧ t = s.setPhase (firstPhase r) := by
  unfold beginReference
  cases h : checkReference s r with
  | ok u => simp [eq_comm]
  | error e => simp

theorem activateLongMode_next_iff (s t : State) :
    activateLongMode s = .next t ↔ s.cr4Pae = true ∧ s.longMode = false ∧ s.started = false ∧
      t = s.setLongMode.respond [.activated] := by
  unfold activateLongMode raise
  cases s.cr4Pae <;> cases s.longMode <;> cases s.started <;> simp [eq_comm]

theorem enablePae_next_iff (s t : State) :
    enablePae s = .next t ↔ (s.started = true → s.cr4Pae = true) ∧ t = s.setCr4Pae.respond [.paeEnabled] := by
  unfold enablePae
  cases s.cr4Pae <;> cases s.started <;> simp [eq_comm]

theorem writeCr3_next_iff (v : Word) (s t : State) :
    writeCr3 v s = .next t ↔ checkCr3 s.cfg v = .ok () ∧ (s.started = true → v = s.cr3) ∧
      t = (s.setCr3 v).respond [.cr3Written] := by
  unfold writeCr3
  cases h : checkCr3 s.cfg v with
  | error e => simp
  | ok u => cases s.started <;> by_cases hv : v = s.cr3 <;> simp [hv, eq_comm (a := t)]

theorem physRead_next_iff (pa : PAddr) (n : Nat) (s t : State) :
    physRead pa n s = .next t ↔ checkPhys s.cfg pa n = .ok () ∧
      t = s.respond [.bytesRead ((physRange pa n).map fun a => s.mem.read a.toNat)] := by
  unfold physRead
  cases h : checkPhys s.cfg pa n with
  | error e => simp
  | ok u => simp [eq_comm]

theorem physWrite_next_iff (pa : PAddr) (bytes : List Byte) (s t : State) :
    physWrite pa bytes s = .next t ↔ checkPhys s.cfg pa bytes.length = .ok () ∧
      ∃ u, storeBytes ((physRange pa bytes.length).zip bytes) s = .ok u ∧ t = u.respond [.bytesWritten] := by
  unfold physWrite
  cases h : checkPhys s.cfg pa bytes.length with
  | error e => simp
  | ok u => cases h' : storeBytes ((physRange pa bytes.length).zip bytes) s <;> simp [eq_comm (a := t)]

theorem finishReference_next_iff (r : Reference) (pas : List PAddr) (s t : State) :
    finishReference r pas s = .next t ↔ answer r pas (s.setPhase .idle) = .ok t := by
  rw [finishReference, outcomeOf_next_iff]

theorem execCr3Lm_next_iff (f : Cr3Lm) (s t : State) :
    execCr3Lm f s = .next t ↔ ∃ w, s.phase = .walking w ∧ w.stage = .root ∧ checkMode s = .ok () ∧
      beyondPabits s.cfg (f.base ++ 0#12 : PAddr) = false ∧ canonical s.cfg.vaBits w.va = true ∧
      t = s.setStarted.setPhase (.walking { w with stage := .table .pml4 (f.base ++ 0#12), attr := noEntries }) := by
  unfold execCr3Lm raise
  constructor
  · intro h
    split at h
    · rename_i w hw
      split at h
      · rename_i hs
        cases hm : checkMode s with
        | error e => simp [hm] at h
        | ok u =>
          simp only [hm] at h
          split at h
          · cases h
          · rename_i hb
            split at h
            · rename_i hc
              exact ⟨w, hw, hs, rfl, by simpa using hb, hc, (Host.Outcome.next.inj h).symm⟩
            · cases h
      · cases h
    · cases h
  · rintro ⟨w, hw, hs, hm, hb, hc, rfl⟩
    simp [hw, hs, hm, hb, hc]

end Sys2Proof.Machine
end

