-- ==== Sys2Proof/Laws/PerInstr.lean ====
section
/-! SUPPORT. Per-format lemmas. `FixedBits`: the encoded word of a format has the fixed bits of the format's row in
spec/opcode_table.json (mask and match, 30_encoding.md §7), whatever its fields hold. -/

namespace Sys2Proof.Laws.FixedBits

/-- The fixed bits of the format's row. -/
def Statement (i : Instr) : Prop := encode i &&& i.fixedMask = i.fixedBits

theorem va4K (f : Va4K) : Statement (.va4K f) := by
  simp [Statement, Instr.fixedMask, Instr.fixedBits]

theorem va2M (f : Va2M) : Statement (.va2M f) := by
  simp [Statement, Instr.fixedMask, Instr.fixedBits]

theorem va1G (f : Va1G) : Statement (.va1G f) := by
  simp [Statement, Instr.fixedMask, Instr.fixedBits]

theorem cr3Lm (f : Cr3Lm) : Statement (.cr3Lm f) := by
  apply BitVec.eq_of_getLsbD_eq
  intro k hk
  simp only [Instr.fixedMask, Instr.fixedBits, encode, BitVec.getLsbD_and, BitVec.getLsbD_append]
  interval_cases k <;> simp

theorem pml4e (f : Pml4e) : Statement (.pml4e f) := by
  apply BitVec.eq_of_getLsbD_eq
  intro k hk
  simp only [Instr.fixedMask, Instr.fixedBits, encode, BitVec.getLsbD_and, BitVec.getLsbD_append]
  interval_cases k <;> simp

theorem pdpePd (f : PdpePd) : Statement (.pdpePd f) := by
  apply BitVec.eq_of_getLsbD_eq
  intro k hk
  simp only [Instr.fixedMask, Instr.fixedBits, encode, BitVec.getLsbD_and, BitVec.getLsbD_append]
  interval_cases k <;> simp

theorem pdpe1G (f : Pdpe1G) : Statement (.pdpe1G f) := by
  apply BitVec.eq_of_getLsbD_eq
  intro k hk
  simp only [Instr.fixedMask, Instr.fixedBits, encode, BitVec.getLsbD_and, BitVec.getLsbD_append]
  interval_cases k <;> simp

theorem pdePt (f : PdePt) : Statement (.pdePt f) := by
  apply BitVec.eq_of_getLsbD_eq
  intro k hk
  simp only [Instr.fixedMask, Instr.fixedBits, encode, BitVec.getLsbD_and, BitVec.getLsbD_append]
  interval_cases k <;> simp

theorem pde2M (f : Pde2M) : Statement (.pde2M f) := by
  apply BitVec.eq_of_getLsbD_eq
  intro k hk
  simp only [Instr.fixedMask, Instr.fixedBits, encode, BitVec.getLsbD_and, BitVec.getLsbD_append]
  interval_cases k <;> simp

theorem pte (f : Pte) : Statement (.pte f) := by
  apply BitVec.eq_of_getLsbD_eq
  intro k hk
  simp only [Instr.fixedMask, Instr.fixedBits, encode, BitVec.getLsbD_and, BitVec.getLsbD_append]
  interval_cases k <;> simp

theorem pde2MLegacy (f : Pde2MLegacy) : Statement (.pde2MLegacy f) := by
  apply BitVec.eq_of_getLsbD_eq
  intro k hk
  simp only [Instr.fixedMask, Instr.fixedBits, encode, BitVec.getLsbD_and, BitVec.getLsbD_append]
  interval_cases k <;> simp

end Sys2Proof.Laws.FixedBits
end

