-- ==== Sys2Proof/Laws/Step.lean ====
section
/-! SUPPORT. Everything a step can do when it answers a next state: one inversion lemma for exec, one for the taking of a request,
one for the step. -/

namespace Sys2Proof.Machine

theorem low12_append (b : BitVec 40) : (b ++ 0#12 : PAddr).extractLsb' 0 12 = 0#12 := by
  apply BitVec.eq_of_getLsbD_eq
  intro i hi
  rw [BitVec.getLsbD_extractLsb', BitVec.getLsbD_append]
  simp [hi]

/-- The stage an entry row leads to is sound. -/
def Stage.leads (c : Config) (next : Stage) : Prop := next.inv c ∧ next ≠ .root

theorem leads_table {c : Config} {b : BitVec 40} (l : Level) (h : beyondPabits c (b ++ 0#12 : PAddr) = false) :
    (Stage.table l (b ++ 0#12)).leads c := ⟨⟨low12_append b, h⟩, by simp⟩

theorem leads_4K {c : Config} {b : BitVec 40} (h : beyondPabits c (b ++ 0#12 : PAddr) = false) :
    (Stage.leaf4K b).leads c := ⟨h, by simp⟩

theorem leads_2M {c : Config} {b : BitVec 31} (h : beyondPabits c (b ++ 0#21 : PAddr) = false) :
    (Stage.leaf2M b).leads c := ⟨h, by simp⟩

theorem leads_1G {c : Config} {b : BitVec 22} (h : beyondPabits c (b ++ 0#30 : PAddr) = false) :
    (Stage.leaf1G b).leads c := ⟨h, by simp⟩

/-- What a row that completes has done. -/
theorem exec_next_cases {i : Instr} {s t : State} (h : exec i s = .next t) :
    ∃ w, s.phase = .walking w ∧
      ((∃ f, i = .cr3Lm f ∧ w.stage = .root ∧ checkMode s = .ok () ∧
          beyondPabits s.cfg (f.base ++ 0#12 : PAddr) = false ∧ canonical s.cfg.vaBits w.va = true ∧
          t = s.setStarted.setPhase (.walking { w with stage := .table .pml4 (f.base ++ 0#12), attr := noEntries })) ∨
       (∃ level b rw us nx next, w.stage = .table level b ∧ next.leads s.cfg ∧ t = afterEntry w level b rw us nx next s) ∨
       (∃ pa, (∀ l b, w.stage ≠ .table l b) ∧ w.stage ≠ .root ∧ beyondPabits s.cfg pa = false ∧
          t = s.setPhase (afterByte w pa))) := by
  cases i with
  | va4K f =>
    simp only [exec, execVa4K] at h
    split at h <;> try cases h
    rename_i w hw
    split at h <;> try cases h
    rename_i base hs
    obtain ⟨-, hb, rfl⟩ := (endByte_next_iff ..).1 h
    exact ⟨w, hw, .inr (.inr ⟨_, by simp [hs], by simp [hs], hb, rfl⟩)⟩
  | va2M f =>
    simp only [exec, execVa2M] at h
    split at h <;> try cases h
    rename_i w hw
    split at h <;> try cases h
    rename_i base hs
    obtain ⟨-, hb, rfl⟩ := (endByte_next_iff ..).1 h
    exact ⟨w, hw, .inr (.inr ⟨_, by simp [hs], by simp [hs], hb, rfl⟩)⟩
  | va1G f =>
    simp only [exec, execVa1G] at h
    split at h <;> try cases h
    rename_i w hw
    split at h <;> try cases h
    rename_i base hs
    obtain ⟨-, hb, rfl⟩ := (endByte_next_iff ..).1 h
    exact ⟨w, hw, .inr (.inr ⟨_, by simp [hs], by simp [hs], hb, rfl⟩)⟩
  | cr3Lm f =>
    obtain ⟨w, hw, hrest⟩ := (execCr3Lm_next_iff ..).1 h
    exact ⟨w, hw, .inl ⟨f, rfl, hrest⟩⟩
  | pml4e f =>
    obtain ⟨w, b, hw, hs, hb, rfl⟩ := (useEntry_next_iff ..).1 h
    exact ⟨w, hw, .inr (.inl ⟨_, _, _, _, _, _, hs, leads_table _ hb, rfl⟩)⟩
  | pdpePd f =>
    obtain ⟨w, b, hw, hs, hb, rfl⟩ := (useEntry_next_iff ..).1 h
    exact ⟨w, hw, .inr (.inl ⟨_, _, _, _, _, _, hs, leads_table _ hb, rfl⟩)⟩
  | pdpe1G f =>
    simp only [exec, execPdpe1G] at h
    split at h <;> try cases h
    obtain ⟨w, b, hw, hs, hb, rfl⟩ := (useEntry_next_iff ..).1 h
    exact ⟨w, hw, .inr (.inl ⟨_, _, _, _, _, _, hs, leads_1G hb, rfl⟩)⟩
  | pdePt f =>
    obtain ⟨w, b, hw, hs, hb, rfl⟩ := (useEntry_next_iff ..).1 h
    exact ⟨w, hw, .inr (.inl ⟨_, _, _, _, _, _, hs, leads_table _ hb, rfl⟩)⟩
  | pde2M f =>
    obtain ⟨w, b, hw, hs, hb, rfl⟩ := (useEntry_next_iff ..).1 h
    exact ⟨w, hw, .inr (.inl ⟨_, _, _, _, _, _, hs, leads_2M hb, rfl⟩)⟩
  | pte f =>
    obtain ⟨w, b, hw, hs, hb, rfl⟩ := (useEntry_next_iff ..).1 h
    exact ⟨w, hw, .inr (.inl ⟨_, _, _, _, _, _, hs, leads_4K hb, rfl⟩)⟩
  | pde2MLegacy f =>
    simp only [exec, execPde2MLegacy] at h
    split at h <;> try cases h
    obtain ⟨w, b, hw, hs, hb, rfl⟩ := (useEntry_next_iff ..).1 h
    exact ⟨w, hw, .inr (.inl ⟨_, _, _, _, _, _, hs, leads_2M hb, rfl⟩)⟩

/-- What the taking of a request that completes has done. -/
theorem takeRequest_next_cases {s t : State} (h : takeRequest s = .next t) :
    (s.requests = [] ∧ t = s) ∨
    (∃ r rest, s.requests = .reference r :: rest ∧ checkReference (s.setRequests rest) r = .ok () ∧
      t = (s.setRequests rest).setPhase (firstPhase r)) ∨
    (∃ rest, s.requests = .activateLongMode :: rest ∧ s.cr4Pae = true ∧ s.longMode = false ∧ s.started = false ∧
      t = (s.setRequests rest).setLongMode.respond [.activated]) ∨
    (∃ rest, s.requests = .enablePae :: rest ∧ (s.started = true → s.cr4Pae = true) ∧
      t = (s.setRequests rest).setCr4Pae.respond [.paeEnabled]) ∨
    (∃ v rest, s.requests = .writeCr3 v :: rest ∧ checkCr3 s.cfg v = .ok () ∧ (s.started = true → v = s.cr3) ∧
      t = ((s.setRequests rest).setCr3 v).respond [.cr3Written]) ∨
    (∃ pa n rest, s.requests = .physRead pa n :: rest ∧ checkPhys s.cfg pa n = .ok () ∧
      t = (s.setRequests rest).respond [.bytesRead ((physRange pa n).map fun a => s.mem.read a.toNat)]) ∨
    (∃ pa bytes rest u, s.requests = .physWrite pa bytes :: rest ∧ checkPhys s.cfg pa bytes.length = .ok () ∧
      storeBytes ((physRange pa bytes.length).zip bytes) (s.setRequests rest) = .ok u ∧
      t = u.respond [.bytesWritten]) := by
  unfold takeRequest at h
  split at h
  · rename_i hq; exact .inl ⟨hq, (Host.Outcome.next.inj h).symm⟩
  · rename_i q rest hq
    refine .inr ?_
    cases q with
    | reference r =>
      exact .inl ⟨r, rest, hq, (beginReference_next_iff ..).1 h⟩
    | activateLongMode =>
      exact .inr (.inl ⟨rest, hq, (activateLongMode_next_iff ..).1 h⟩)
    | enablePae =>
      exact .inr (.inr (.inl ⟨rest, hq, (enablePae_next_iff ..).1 h⟩))
    | writeCr3 v =>
      exact .inr (.inr (.inr (.inl ⟨v, rest, hq, (writeCr3_next_iff ..).1 h⟩)))
    | physRead pa n =>
      exact .inr (.inr (.inr (.inr (.inl ⟨pa, n, rest, hq, (physRead_next_iff ..).1 h⟩))))
    | physWrite pa bytes =>
      obtain ⟨hc, u, hu, ht⟩ := (physWrite_next_iff ..).1 h
      exact .inr (.inr (.inr (.inr (.inr ⟨pa, bytes, rest, u, hq, hc, hu, ht⟩))))

theorem rejectWord_ne_next (w : Walk) (e : Reject) (t : State) : rejectWord w e ≠ .next t := by
  unfold rejectWord raise
  split <;> simp

/-- What a step that answers a next state has done. -/
theorem step_next_cases {s t : State} (h : step s = .next t) :
    (s.phase = .idle ∧ takeRequest s = .next t) ∨
    (∃ w word i, s.phase = .walking w ∧ fetchWord w s = .ok word ∧ decodeWord w.stage.slot word = .ok i ∧
      exec i s = .next t) ∨
    (∃ r pas, s.phase = .finishing r pas ∧ answer r pas (s.setPhase .idle) = .ok t) := by
  unfold step at h
  split at h
  · rename_i hp; exact .inl ⟨hp, h⟩
  · rename_i w hp
    refine .inr (.inl ?_)
    split at h
    · simp at h
    · rename_i word hf
      split at h
      · rename_i i hd; exact ⟨w, word, i, hp, hf, hd, h⟩
      · exact absurd h (rejectWord_ne_next _ _ _)
  · rename_i r pas hp
    exact .inr (.inr ⟨r, pas, hp, (finishReference_next_iff ..).1 h⟩)

end Sys2Proof.Machine
end

