-- ==== Sys2Proof/Laws/Walk.lean ====
section
/-! SUPPORT. Canonical form in numbers; the steps of a walk as equations over `checkEntry` and `endByte`; how several steps
compose. -/

namespace Sys2Proof.Machine

/-! ### Canonical form -/

theorem canonical48_iff (va : Word) : canonical48 va = true ↔ va.toNat / 2 ^ 47 = 0 ∨ va.toNat / 2 ^ 47 = 2 ^ 17 - 1 := by
  have h := va.isLt
  simp only [canonical48, Bool.or_eq_true, beq_iff_eq, ← BitVec.toNat_inj, BitVec.extractLsb'_toNat, Nat.shiftRight_eq_div_pow]
  rw [Nat.mod_eq_of_lt (show va.toNat / 2 ^ 47 < 2 ^ 17 by omega)]
  rfl

theorem canonical_48_iff (va : VAddr) : canonical 48 va = true ↔ va.toNat / 2 ^ 47 = 0 ∨ va.toNat / 2 ^ 47 = 2 ^ 17 - 1 := by
  simp only [canonical, Bool.or_eq_true, beq_iff_eq, ← BitVec.toNat_inj, BitVec.toNat_ushiftRight, Nat.shiftRight_eq_div_pow]
  rfl

theorem canonical_48_eq (va : VAddr) : canonical 48 va = canonical48 va := by
  rw [Bool.eq_iff_iff, canonical_48_iff, canonical48_iff]

/-! ### Checks -/

theorem guardStop_true (st : Stop) : guardStop true st = .error st := rfl

theorem guardStop_false (st : Stop) : guardStop false st = .ok () := rfl

theorem toNat_append_zero (n k : Nat) (b : BitVec n) : (b ++ 0#k).toNat = b.toNat * 2^k := by
  rw [BitVec.toNat_append]; simp [Nat.shiftLeft_eq]

/-- A base field shifted into place lies beyond PABITS exactly when the entry's low 52 bits do: PABITS >= 32 is above every
field's lowest bit (R3, R21). -/
theorem beyond_of_field (c : Config) (e : Word) (k : Nat) (n : Nat) (hk : k ≤ 30) (hn : k + n = 52)
    (b : BitVec n) (hb : b = e.extractLsb' k n) (x : PAddr) (hx : x.toNat = b.toNat * 2^k) :
    beyondPabits c x = beyondPabits c (e.extractLsb' 0 52) := by
  unfold beyondPabits
  congr 1
  have h1 : (e.extractLsb' 0 52).toNat = e.toNat % 2^52 := by simp [BitVec.extractLsb'_toNat]
  have h2 : b.toNat = (e.toNat % 2^52) / 2^k := by
    subst hb
    rw [BitVec.extractLsb'_toNat, Nat.shiftRight_eq_div_pow, ← hn, Nat.pow_add, Nat.mod_mul_right_div_self]
  have h3 : ∃ j, 2 ^ c.paBits = 2^j * 2^k := ⟨c.paBits - k, by rw [← Nat.pow_add]; congr 1; unfold Config.paBits; omega⟩
  obtain ⟨j, hj⟩ := h3
  rw [h1, hx, h2, hj]
  apply propext
  constructor
  · intro h
    have := Nat.div_mul_le_self (e.toNat % 2^52) (2^k)
    omega
  · intro h
    apply Nat.mul_le_mul_right
    exact (Nat.le_div_iff_mul_le (by positivity)).2 h

theorem beyond_base12 (c : Config) (e : Word) :
    beyondPabits c (e.extractLsb' 12 40 ++ 0#12 : PAddr) = beyondPabits c (e.extractLsb' 0 52) :=
  beyond_of_field c e 12 40 (by omega) rfl _ rfl _ (toNat_append_zero ..)

theorem beyond_base21 (c : Config) (e : Word) :
    beyondPabits c (e.extractLsb' 21 31 ++ 0#21 : PAddr) = beyondPabits c (e.extractLsb' 0 52) :=
  beyond_of_field c e 21 31 (by omega) rfl _ rfl _ (toNat_append_zero ..)

theorem beyond_base30 (c : Config) (e : Word) :
    beyondPabits c (e.extractLsb' 30 22 ++ 0#30 : PAddr) = beyondPabits c (e.extractLsb' 0 52) :=
  beyond_of_field c e 30 22 (by omega) rfl _ rfl _ (toNat_append_zero ..)

/-! ### The steps of a walk -/

/-- The CR3 step of a reference whose checks have passed (R62). -/
theorem step_root (s : State) (w : Walk) (hp : s.phase = .walking w) (hs : w.stage = .root)
    (pre : precondition s = .ok ()) (hc : canonical s.cfg.vaBits w.va = true) :
    step s = .next (s.setStarted.setPhase (.walking { w with stage := .table .pml4 (pml4Base s.cr3), attr := noEntries })) := by
  rw [precondition_ok_iff] at pre
  have hm : checkMode s = .ok () := (checkMode_ok_iff s).2 pre.1
  simp only [step, hp, fetchWord, hs, Stage.slot, decodeWord, pre.2.1, if_true, exec]
  rw [execCr3Lm_next_iff]
  exact ⟨w, hp, hs, hm, pre.2.2, hc, rfl⟩

/-- Where an entry that has passed `checkEntry` leads (R62 to R65, R70, R75). -/
def nextStage (l : Level) (e : Word) : Stage := match l with
  | .pml4 => .table .pdp (tableBase e)
  | .pdp => if e.getLsbD 7 then .leaf1G (e.extractLsb' 30 22) else .table .pd (tableBase e)
  | .pd => if e.getLsbD 7 then .leaf2M (e.extractLsb' 21 31) else .table .pt (tableBase e)
  | .pt => .leaf4K (e.extractLsb' 12 40)

/-- The step that reads an entry: the read, `CheckEntry` (R66), and the next stage. -/
theorem step_table (s : State) (w : Walk) (l b) (hp : s.phase = .walking w) (hs : w.stage = .table l b) :
    step s = match readEntry s (entryAddr b (tableIndex l w.va)) with
      | .error e => e.outcome
      | .ok e => match checkEntry s.cfg e l w.va w.ref.acc with
        | .error st => st.outcome
        | .ok _ => .next (afterEntry w l b (e.getLsbD 1) (e.getLsbD 2) (e.getLsbD 63) (nextStage l e) s) := by
  have hf : fetchWord w s = readEntry s (entryAddr b (tableIndex l w.va)) := by simp [fetchWord, hs]
  unfold step
  simp only [hp, hf]
  cases readEntry s (entryAddr b (tableIndex l w.va)) with
  | error e => rfl
  | ok e =>
    simp only
    cases l with
    | pml4 =>
      simp only [hs, Stage.slot, decodeWord, checkEntry, reservedSet]
      cases h0 : e.getLsbD 0
      · simp [rejectWord, hs, guardStop_true, bind, Except.bind, Stop.outcome]
      · by_cases hm : e.extractLsb' 7 2 = 0#2
        · simp only [hm, reduceIte, ne_eq, not_true, Bool.true_eq_false]
          simp only [exec, execPml4e, useEntry, hp, hs, Pml4e.ofWord, beyond_base12]
          cases hb : beyondPabits s.cfg (e.extractLsb' 0 52)
          · simp [guardStop_false, bind, Except.bind, nextStage, afterEntry, tableBase]
          · simp [guardStop_false, guardStop_true, bind, Except.bind, Stop.outcome]
        · simp [hm, rejectWord, hs, guardStop_true, guardStop_false, bind, Except.bind, Stop.outcome, bne_iff_ne.2 hm]
    | pdp =>
      simp only [hs, Stage.slot, decodeWord, checkEntry, reservedSet]
      cases h0 : e.getLsbD 0
      · simp [rejectWord, hs, guardStop_true, bind, Except.bind, Stop.outcome]
      · cases h7 : e.getLsbD 7
        · simp only [reduceIte, Bool.true_eq_false]
          simp only [exec, execPdpePd, useEntry, hp, hs, PdpePd.ofWord, beyond_base12]
          cases hb : beyondPabits s.cfg (e.extractLsb' 0 52)
          · simp [guardStop_false, bind, Except.bind, nextStage, afterEntry, tableBase, h7, ← BitVec.getLsbD_eq_getElem]
          · simp [guardStop_false, guardStop_true, bind, Except.bind, Stop.outcome, h7]
        · by_cases hm : e.extractLsb' 13 17 = 0#17
          · simp only [hm, reduceIte, ne_eq, not_true, Bool.true_eq_false]
            simp only [exec, execPdpe1G, useEntry, hp, hs, Pdpe1G.ofWord, beyond_base30]
            cases hg : s.cfg.page1gb
            · simp [guardStop_false, guardStop_true, bind, Except.bind, Stop.outcome]
            · cases hb : beyondPabits s.cfg (e.extractLsb' 0 52)
              · simp [guardStop_false, bind, Except.bind, nextStage, afterEntry, tableBase, h7, ← BitVec.getLsbD_eq_getElem]
              · simp [guardStop_false, guardStop_true, bind, Except.bind, Stop.outcome, h7]
          · cases hg : s.cfg.page1gb <;>
              simp [hm, hg, rejectWord, hs, guardStop_true, guardStop_false, bind, Except.bind, Stop.outcome, bne_iff_ne.2 hm]
    | pd =>
      simp only [hs, Stage.slot, decodeWord, checkEntry, reservedSet]
      cases h0 : e.getLsbD 0
      · simp [rejectWord, hs, guardStop_true, bind, Except.bind, Stop.outcome]
      · cases h7 : e.getLsbD 7
        · simp only [reduceIte, Bool.true_eq_false]
          simp only [exec, execPdePt, useEntry, hp, hs, PdePt.ofWord, beyond_base12]
          cases hb : beyondPabits s.cfg (e.extractLsb' 0 52)
          · simp [guardStop_false, bind, Except.bind, nextStage, afterEntry, tableBase, h7, ← BitVec.getLsbD_eq_getElem]
          · simp [guardStop_false, guardStop_true, bind, Except.bind, Stop.outcome, h7]
        · by_cases hm : e.extractLsb' 13 8 = 0#8
          · simp only [hm, reduceIte, ne_eq, not_true, Bool.true_eq_false]
            simp only [exec, execPde2M, useEntry, hp, hs, Pde2M.ofWord, beyond_base21]
            cases hb : beyondPabits s.cfg (e.extractLsb' 0 52)
            · simp [guardStop_false, bind, Except.bind, nextStage, afterEntry, tableBase, h7, ← BitVec.getLsbD_eq_getElem]
            · simp [guardStop_false, guardStop_true, bind, Except.bind, Stop.outcome, h7]
          · simp [hm, rejectWord, hs, guardStop_true, guardStop_false, bind, Except.bind, Stop.outcome, bne_iff_ne.2 hm]
    | pt =>
      simp only [hs, Stage.slot, decodeWord, checkEntry, reservedSet]
      cases h0 : e.getLsbD 0
      · simp [rejectWord, hs, guardStop_true, bind, Except.bind, Stop.outcome]
      · simp only [reduceIte, Bool.true_eq_false]
        simp only [exec, execPte, useEntry, hp, hs, Pte.ofWord, beyond_base12]
        cases hb : beyondPabits s.cfg (e.extractLsb' 0 52)
        · simp [guardStop_false, bind, Except.bind, nextStage, afterEntry, tableBase]
        · simp [guardStop_false, guardStop_true, bind, Except.bind, Stop.outcome]

/-- The ending of a 4-Kbyte walk. -/
theorem step_leaf4K (s : State) (w : Walk) (base) (hp : s.phase = .walking w) (hs : w.stage = .leaf4K base)
    (hc : canonical48 w.va = true) :
    step s = endByte .pt w (base ++ w.va.extractLsb' 0 12) s := by
  simp [step, hp, fetchWord, hs, Stage.slot, decodeWord, hc, exec, execVa4K, Va4K.ofWord, pageAddr4K]

/-- The ending of a 2-Mbyte walk. -/
theorem step_leaf2M (s : State) (w : Walk) (base) (hp : s.phase = .walking w) (hs : w.stage = .leaf2M base)
    (hc : canonical48 w.va = true) :
    step s = endByte .pd w (base ++ w.va.extractLsb' 0 21) s := by
  simp [step, hp, fetchWord, hs, Stage.slot, decodeWord, hc, exec, execVa2M, Va2M.ofWord, pageAddr2M]

/-- The ending of a 1-Gbyte walk. -/
theorem step_leaf1G (s : State) (w : Walk) (base) (hp : s.phase = .walking w) (hs : w.stage = .leaf1G base)
    (hc : canonical48 w.va = true) :
    step s = endByte .pdp w (base ++ w.va.extractLsb' 0 30) s := by
  simp [step, hp, fetchWord, hs, Stage.slot, decodeWord, hc, exec, execVa1G, Va1G.ofWord, pageAddr1G]

/-! ### Several steps -/

theorem steps_one (s : State) : steps 1 s = step s := by
  simp only [steps]; cases step s <;> rfl

theorem steps_next {s t : State} (h : step s = .next t) (k : Nat) : steps (k+1) s = steps k t := by simp [steps, h]

theorem steps_stop {s : State} {e : Stop} (h : step s = e.outcome) : steps 1 s = e.outcome := by
  cases e <;> simp [steps, h, Stop.outcome, raise]

theorem steps_add {s t : State} : ∀ {j} (k), steps j s = .next t → steps (j+k) s = steps k t := by
  intro j
  induction j generalizing s with
  | zero => intro k h; simp [steps] at h; subst h; simp
  | succ j ih =>
    intro k h
    rw [show j+1+k = (j+k)+1 by omega]
    simp only [steps] at h ⊢
    cases hs : step s with
    | next u => simp [hs] at h ⊢; exact ih k h
    | fault f => simp [hs] at h
    | refused r => simp [hs] at h

end Sys2Proof.Machine
end

