-- ==== Sys2Proof/Tests/Slice0.lean ====
section
/-! SUPPORT. The model's own tests. Expected results come from spec/95_test_vectors.md (named by their ids) and from the format
tables of spec/30_encoding.md. Then, for every obligation with hypotheses, a witness that meets them. -/

namespace Sys2Proof.Tests

open Sys2Proof.Machine

/-! ### Helpers -/

def supRead : Acc := { kind := .read, stack := false, user := false }
def stackRead : Acc := { kind := .read, stack := true, user := false }
def userWrite : Acc := { kind := .write, stack := false, user := true }

/-- "All programs have LongMode = 1, CR4.PAE = 1, PABITS = 52, PAGE1GB = true, PermCheck = allow unless said"
(95_test_vectors.md §3). -/
def cfg52 : Config := { vaBits := 48, paExtra := 20, page1gb := true, permCheck := .allow }
def cfg40 : Config := { cfg52 with paExtra := 8 }
def noPage1G : Config := { cfg52 with page1gb := false }
def strict52 : Config := { cfg52 with permCheck := .strict }

/-- Words stored at addresses. -/
def image (l : List (Nat × Word)) : Memory := l.foldl (fun m c => m.writeBytes c.1 (wordBytes c.2)) []

/-- A launch state with CR3 = 0x1000. -/
def launched (c : Config) (mem : Memory) (requests : List Request) : State :=
  { State.reset with cfg := c, cr3 := 0x1000#64, cr4Pae := true, longMode := true, mem := mem, requests := requests }

/-- A walk for one byte at `va`, standing at `stage`. -/
def walkOf (va : VAddr) (stage : Stage) : Walk :=
  { ref := { va := va, acc := supRead, kind := .translate }, done := [], stage := stage, attr := noEntries }

def walkingAt (c : Config) (va : VAddr) (stage : Stage) (mem : Memory) : State :=
  { launched c mem [] with started := true, phase := .walking (walkOf va stage) }

def ended (r : Reference) (pas : List PAddr) (mem : Memory) : State :=
  { launched cfg52 mem [] with started := true, phase := .finishing r pas }

def nextOf : Host.Outcome State Fault Refusal → Option State
  | .next s => some s
  | _ => none

def faultOf : Host.Outcome State Fault Refusal → Option Fault
  | .fault f => some f
  | _ => none

def refusalOf : Host.Outcome State Fault Refusal → Option Refusal
  | .refused r => some r
  | _ => none

/-- P1: one 4-Kbyte page. -/
def memP1 : Memory := image [(0x1000, 0x2003#64), (0x2000, 0x3003#64), (0x3000, 0x4003#64), (0x4008, 0xABC003#64)]
/-- P2: one 2-Mbyte page. -/
def memP2 : Memory := image [(0x1000, 0x2003#64), (0x2000, 0x3003#64), (0x3010, 0x40000083#64)]
/-- P3: one 1-Gbyte page in the upper half. -/
def memP3 : Memory := image [(0x1FF8, 0x2003#64), (0x2FF8, 0x100000083#64)]
/-- P6: a table that points to itself. -/
def memP6 : Memory := image [(0x7FF0, 0x7003#64)]

/-! ### WellFormed: an ill-formed term for each check -/

theorem test_wf_va4K_refuses_bad_sign :
    (Instr.va4K { signExt := 1#16, pml4Index := 0#9, pdpIndex := 0#9, pdIndex := 0#9, ptIndex := 0#9,
                  offset := 0#12 }).wf = false := by decide
theorem test_wf_va2M_refuses_bad_sign :
    (Instr.va2M { signExt := 0#16, pml4Index := 256#9, pdpIndex := 0#9, pdIndex := 0#9, offset := 0#21 }).wf = false := by
  decide
theorem test_wf_va1G_refuses_bad_sign :
    (Instr.va1G { signExt := 0xFFFE#16, pml4Index := 511#9, pdpIndex := 0#9, offset := 0#30 }).wf = false := by decide

/-! ### Decoding: words of the spec -/

/-- V-F4. -/
theorem test_decode_va4K : decodeWord .va4K 0x0000008080604ABC#64 =
    .ok (.va4K { signExt := 0#16, pml4Index := 1#9, pdpIndex := 2#9, pdIndex := 3#9, ptIndex := 4#9,
                 offset := 0xABC#12 }) := by decide
/-- V-F6. -/
theorem test_decode_va2M : decodeWord .va2M 0xFFFF923456789ABC#64 =
    .ok (.va2M { signExt := 0xFFFF#16, pml4Index := 292#9, pdpIndex := 209#9, pdIndex := 179#9,
                 offset := 0x189ABC#21 }) := by decide
/-- V-F10. -/
theorem test_decode_va1G : decodeWord .va1G 0xFFFFFFFFC0123456#64 =
    .ok (.va1G { signExt := 0xFFFF#16, pml4Index := 511#9, pdpIndex := 511#9, offset := 0x123456#30 }) := by decide
/-- V-C2 and V-C4: the first addresses outside canonical form. -/
theorem test_decode_va_noncanonical : decodeWord .va4K 0x0000800000000000#64 = .error .nonCanonical ∧
    decodeWord .va1G 0xFFFF7FFFFFFFFFFF#64 = .error .nonCanonical := by decide
/-- V-R2. -/
theorem test_decode_cr3 : decodeWord .cr3 0x0000000000001018#64 =
    .ok (.cr3Lm { base := 1#40, pcd := true, pwt := true }) := by decide
/-- V-R4, V-R5, V-R6. -/
theorem test_decode_cr3_reserved : decodeWord .cr3 0x1001#64 = .error .reservedCr3 ∧
    decodeWord .cr3 0x1020#64 = .error .reservedCr3 ∧ decodeWord .cr3 0x0010000000001000#64 = .error .reservedCr3 := by
  decide
/-- R47, one bit a field: NX (63), bit 52, bit 12, bit 9, bit 6, A (5), R/W (1), P (0). -/
theorem test_decode_pml4e : decodeWord .pml4 0x8010000000001263#64 =
    .ok (.pml4e { nx := true, avail := 1#11, base := 1#40, avl := 1#3, ign6 := true, a := true, pcd := false, pwt := false,
                  us := false, rw := true }) := by decide
/-- V-X2, V-X3, V-X4. -/
theorem test_decode_pml4e_reserved : decodeWord .pml4 0x2083#64 = .error .mustBeZero ∧
    decodeWord .pml4 0x2103#64 = .error .mustBeZero ∧ decodeWord .pml4 0x2082#64 = .error .notPresent := by decide
/-- R48: bit 8 ignored, PCD (4), U/S (2). -/
theorem test_decode_pdpePd : decodeWord .pdp 0x0000000000003115#64 =
    .ok (.pdpePd { nx := false, avail := 0#11, base := 3#40, avl := 0#3, ign8 := true, ign6 := false, a := false,
                   pcd := true, pwt := false, us := true, rw := false }) := by decide
/-- V-L10: bit 12 is PAT. -/
theorem test_decode_pdpe1G : decodeWord .pdp 0x0000000040001083#64 =
    .ok (.pdpe1G { nx := false, avail := 0#11, base := 1#22, pat := true, avl := 0#3, g := false, d := false, a := false,
                   pcd := false, pwt := false, us := false, rw := true }) := by decide
/-- V-X6. -/
theorem test_decode_pdpe1G_reserved : decodeWord .pdp 0x0000000040002083#64 = .error .mustBeZero := by decide
/-- P1's PDE, with PWT (3) and bits 11:9 set. -/
theorem test_decode_pdePt : decodeWord .pd 0x0000000000004E0B#64 =
    .ok (.pdePt { nx := false, avail := 0#11, base := 4#40, avl := 7#3, ign8 := false, ign6 := false, a := false,
                  pcd := false, pwt := true, us := false, rw := true }) := by decide
/-- V-L7: bit 12 is PAT. -/
theorem test_decode_pde2M : decodeWord .pd 0x0000000000201083#64 =
    .ok (.pde2M { nx := false, avail := 0#11, base := 1#31, pat := true, avl := 0#3, g := false, d := false, a := false,
                  pcd := false, pwt := false, us := false, rw := true }) := by decide
/-- V-X5. -/
theorem test_decode_pde2M_reserved : decodeWord .pd 0x0000000000202083#64 = .error .mustBeZero := by decide
/-- V-L4: bit 7 of a PTE is PAT, not PS; here with G (8) and D (6). -/
theorem test_decode_pte : decodeWord .pt 0x00000000000051C3#64 =
    .ok (.pte { nx := false, avail := 0#11, base := 5#40, avl := 0#3, g := true, pat := true, d := true, a := false,
                pcd := false, pwt := false, us := false, rw := true }) := by decide
/-- R81; and bit 52, which the legacy layout does not have (R82). -/
theorem test_decode_legacy : decodeWord .legacyPd 0x8000000000200181#64 =
    .ok (.pde2MLegacy { nx := true, base := 1#31, pat := false, avl := 0#3, g := true, d := false, a := false, pcd := false,
                        pwt := false, us := false, rw := false }) ∧
    decodeWord .legacyPd 0x0010000000200081#64 = .error .mustBeZero := by decide
/-- R31: P1's PML4E, its bytes at increasing addresses; and seven bytes are no word. -/
theorem test_decode_bytes : decode .pml4 [0x03, 0x20, 0, 0, 0, 0, 0, 0] = decodeWord .pml4 0x2003#64 ∧
    decode .pml4 [0x03, 0x20, 0, 0, 0, 0, 0] = .error .wrongLength := by decide
/-- The encoder on V-F6 and on the entries above. -/
theorem test_encode :
    encode (.va2M { signExt := 0xFFFF#16, pml4Index := 292#9, pdpIndex := 209#9, pdIndex := 179#9,
                    offset := 0x189ABC#21 }) = 0xFFFF923456789ABC#64 ∧
    encode (.pdpe1G { nx := false, avail := 0#11, base := 4#22, pat := false, avl := 0#3, g := false, d := false, a := false,
                      pcd := false, pwt := false, us := false, rw := true }) = 0x0000000100000083#64 := by decide

/-- The bare-word reading of each row that has one (log 4). -/
theorem test_decodeTableWord :
    ((decodeTableWord 64 0x1018).map Instr.slot = some .cr3) ∧ ((decodeTableWord 64 0x40000083).map Instr.slot = some .legacyPd) ∧
    ((decodeTableWord 64 0x0010000040000083).map Instr.slot = some .pdp) ∧
    ((decodeTableWord 64 0x0010000000200083).map Instr.slot = some .pd) ∧
    ((decodeTableWord 64 0x2003).map Instr.slot = some .pml4) ∧ ((decodeTableWord 64 0x3103).map Instr.slot = some .pdp) ∧
    ((decodeTableWord 64 0x2083).map Instr.slot = some .pt) ∧
    ((decodeTableWord 64 0x8080604ABC).map Instr.slot = some .va4K) := by decide

/-- What withFetchWord places runs in the very next step: an entry is read, a CR3 word begins a walk. -/
theorem test_withFetchWord :
    ((nextOf (step (State.reset.withFetchWord 64 0x2003))).map (·.entriesRead) = some [0#52]) ∧
    ((nextOf (step (State.reset.withFetchWord 64 0x1018))).map (·.phase)
      = some (.walking { ref := probe 0#64, done := [], stage := .table .pml4 0x1000#52, attr := noEntries })) ∧
    ((nextOf (step (State.reset.withFetchWord 64 0xABC))).map (·.phase) = some (.finishing (probe 0xABC#64) [0xABC#52])) := by
  decide

/-! ### Whole operations: the small programs of 95_test_vectors.md §3 -/

/-- P1: the first request. -/
theorem test_P1 : translateVa (launched cfg52 memP1 []) 0x1234#64 supRead =
    .ok { pa := 0xABC234#52, page := .page4K, reads := [0x1000#52, 0x2000#52, 0x3000#52, 0x4008#52] } := by decide
/-- P1: PTE 2 is 0; and the two non-canonical requests. -/
theorem test_P1_faults :
    translateVa (launched cfg52 memP1 []) 0x2000#64 supRead = .error (.fault (.pageNotPresent 0x2000#64 supRead .pt)) ∧
    translateVa (launched cfg52 memP1 []) 0x0000800000000000#64 supRead
      = .error (.fault (.gpNonCanonical 0x0000800000000000#64 supRead)) ∧
    translateVa (launched cfg52 memP1 []) 0x0000800000000000#64 stackRead
      = .error (.fault (.ssNonCanonical 0x0000800000000000#64 stackRead)) := by decide
/-- P2: the last byte of the page, and PDE 3. -/
theorem test_P2 :
    translateVa (launched cfg52 memP2 []) 0x5FFFFF#64 supRead
      = .ok { pa := 0x401FFFFF#52, page := .page2M, reads := [0x1000#52, 0x2000#52, 0x3010#52] } ∧
    translateVa (launched cfg52 memP2 []) 0x600000#64 supRead = .error (.fault (.pageNotPresent 0x600000#64 supRead .pd)) := by
  decide
/-- P3, with and without PAGE1GB. -/
theorem test_P3 :
    translateVa (launched cfg52 memP3 []) 0xFFFFFFFFC0123456#64 supRead
      = .ok { pa := 0x100123456#52, page := .page1G, reads := [0x1FF8#52, 0x2FF8#52] } ∧
    translateVa (launched noPage1G memP3 []) 0xFFFFFFFFC0123456#64 supRead = .error (.refused (.reservedBit .pdp)) := by
  decide
/-- P6: one entry serves at all four levels. -/
theorem test_P6 : translateVa { launched cfg52 memP6 [] with cr3 := 0x7000#64 } 0xFFFFFF7FBFDFEFF0#64 supRead =
    .ok { pa := 0x7FF0#52, page := .page4K, reads := [0x7FF0#52, 0x7FF0#52, 0x7FF0#52, 0x7FF0#52] } := by decide
/-- V-X8 and V-X9: PABITS = 40. -/
theorem test_pabits :
    translateVa (launched cfg40 (image [(0x1000, 0x2003#64), (0x2000, 0x3003#64), (0x3000, 0x4003#64),
      (0x4000, 0x10000000003#64)]) []) 0#64 supRead = .error (.refused (.baseBeyondPabits .pt)) ∧
    (translateVa (launched cfg40 (image [(0x1000, 0x2003#64), (0x2000, 0x3003#64), (0x3000, 0x4003#64),
      (0x4000, 0xFFFFFFF003#64)]) []) 0xFFF#64 supRead).map (·.pa) = .ok 0xFFFFFFFFFF#52 := by decide
/-- V-L3: NX of the PTE reaches the effective attributes, so the strict PermCheck denies a fetch. -/
theorem test_noexec_denied :
    translateVa (launched strict52 (image [(0x1000, 0x2003#64), (0x2000, 0x3003#64), (0x3000, 0x4003#64),
      (0x4000, 0xFFF0000000005003#64)]) []) 0xABC#64 { supRead with kind := .fetch }
      = .error (.fault (.pageDenied 0xABC#64 { supRead with kind := .fetch } .pt)) := by decide

/-! ### One step of a request -/

/-- V-C8: byte 7 of the read is not canonical. V-C9: the read passes 2^64. -/
theorem test_reference_checks :
    faultOf (step (launched cfg52 memP1 [memReadRequest 0x00007FFFFFFFFFF9#64 8 supRead]))
      = some (.gpNonCanonical 0x00007FFFFFFFFFF9#64 supRead) ∧
    refusalOf (step (launched cfg52 memP1 [memReadRequest 0xFFFFFFFFFFFFFFFC#64 8 supRead])) = some .wraps := by decide
/-- V-A1, V-A2, V-A3. -/
theorem test_activate :
    faultOf (step { State.reset with requests := [.activateLongMode] }) = some .gpActivation ∧
    (nextOf (step { State.reset with cr4Pae := true, requests := [.activateLongMode] })).map (·.longMode) = some true ∧
    refusalOf (step (launched cfg52 [] [.activateLongMode])) = some .alreadyActive := by decide
/-- V-R7: CR3 bit 40 with PABITS = 40. -/
theorem test_writeCr3_beyond :
    refusalOf (step (launched cfg40 [] [.writeCr3 0x10000001000#64])) = some .cr3BeyondPabits := by decide
/-- P4 c: the bytes of a read in two pages, lowest address first. -/
theorem test_memRead_bytes :
    (nextOf (step (ended { va := 0x1FFE#64, acc := supRead, kind := .read 4 } [0x5FFE#52, 0x5FFF#52, 0x9000#52, 0x9001#52]
      [(0x5FFE, 0x33#8), (0x5FFF, 0x44#8), (0x9000, 0x55#8), (0x9001, 0x66#8)]))).map (·.results)
      = some [.bytesRead [0x33#8, 0x44#8, 0x55#8, 0x66#8]] := by decide
/-- P4 h: the low byte of the value at the lowest address, across two pages. -/
theorem test_memWrite_bytes :
    (nextOf (step (ended { va := 0x1FFE#64, acc := userWrite, kind := .write (splitLE 4 0x03040506#32) }
      [0x5FFE#52, 0x5FFF#52, 0x9000#52, 0x9001#52] []))).map (·.mem)
      = some [(0x5FFE, 0x06#8), (0x5FFF, 0x05#8), (0x9000, 0x04#8), (0x9001, 0x03#8)] := by decide
/-- R104: a store into an entry that a walk has read. -/
theorem test_store_into_table :
    refusalOf (step { ended { va := 0x1000#64, acc := userWrite, kind := .write [0x07#8] } [0x7FF0#52] memP6 with
      entriesRead := [0x7FF0#52] }) = some .tableChanged := by decide

/-- R30, outside long mode (log 36); and a read of no byte (log 22). -/
theorem test_physRead :
    (nextOf (step { State.reset with mem := [(0x1000, 0x03#8)], requests := [.physRead 0x1000#52 2] })).map (·.results)
      = some [.bytesRead [0x03#8, 0x00#8]] ∧
    (nextOf (step { State.reset with requests := [.physRead 0x1000#52 0] })).map (·.results) = some [.bytesRead []] := by
  decide

/-! ### One step of each row -/

/-- V-R1 and V-R2: PWT and PCD change nothing. -/
theorem test_exec_cr3Lm :
    (nextOf (exec (.cr3Lm { base := 1#40, pcd := true, pwt := true }) (walkingAt cfg52 0x1234#64 .root []))).map (·.phase)
      = some (.walking (walkOf 0x1234#64 (.table .pml4 0x1000#52))) := by decide
/-- V-E2 and V-E3 as entries read: index 256 at 0x1800. -/
theorem test_exec_pml4e :
    (nextOf (step (walkingAt cfg52 0xFFFF800000000000#64 (.table .pml4 0x1000#52) (image [(0x1800, 0x2003#64)])))).map
      (fun t => (t.entriesRead, t.phase))
      = some ([0x1800#52], .walking { walkOf 0xFFFF800000000000#64 (.table .pdp 0x2000#52) with
          attr := { writable := true, user := false, noexec := false } }) := by decide
/-- V-E4. -/
theorem test_exec_pdpePd :
    (nextOf (step (walkingAt cfg52 0x80000000#64 (.table .pdp 0x2000#52) (image [(0x2010, 0x3007#64)])))).map
      (fun t => (t.entriesRead, t.phase))
      = some ([0x2010#52], .walking (walkOf 0x80000000#64 (.table .pd 0x3000#52))) := by decide
/-- V-L8: the page base of a 1-Gbyte PDPE. -/
theorem test_exec_pdpe1G :
    (nextOf (step (walkingAt cfg52 0x123456#64 (.table .pdp 0x2000#52) (image [(0x2000, 0x100000087#64)])))).map (·.phase)
      = some (.walking (walkOf 0x123456#64 (.leaf1G 4#22))) := by decide
/-- V-E5. -/
theorem test_exec_pdePt :
    (nextOf (step (walkingAt cfg52 0x600000#64 (.table .pd 0x3000#52) (image [(0x3018, 0x4007#64)])))).map
      (fun t => (t.entriesRead, t.phase))
      = some ([0x3018#52], .walking (walkOf 0x600000#64 (.table .pt 0x4000#52))) := by decide
/-- V-L6: the highest 2-Mbyte page. -/
theorem test_exec_pde2M :
    (nextOf (step (walkingAt cfg52 0#64 (.table .pd 0x3000#52) (image [(0x3000, 0x000FFFFFFFE00087#64)])))).map (·.phase)
      = some (.walking (walkOf 0#64 (.leaf2M 0x7FFFFFFF#31))) := by decide
/-- V-L2: bits 63:52 and 11:0 of the PTE do not reach the address. -/
theorem test_exec_pte :
    (nextOf (step (walkingAt cfg52 0#64 (.table .pt 0x4000#52) (image [(0x4000, 0xFFFFFFFFFFFFFFFF#64)])))).map (·.phase)
      = some (.walking { walkOf 0#64 (.leaf4K 0xFFFFFFFFFF#40) with
          attr := { writable := true, user := true, noexec := true } }) := by decide
/-- V-L1. -/
theorem test_exec_va4K :
    (nextOf (step (walkingAt cfg52 0x1234#64 (.leaf4K 0xABC#40) []))).map (·.phase)
      = some (.finishing { va := 0x1234#64, acc := supRead, kind := .translate } [0xABC234#52]) := by decide
/-- V-L7. -/
theorem test_exec_va2M :
    (nextOf (step (walkingAt cfg52 0x1FFFFF#64 (.leaf2M 1#31) []))).map (·.phase)
      = some (.finishing { va := 0x1FFFFF#64, acc := supRead, kind := .translate } [0x3FFFFF#52]) := by decide
/-- V-L9. -/
theorem test_exec_va1G :
    (nextOf (step (walkingAt cfg52 0x3FFFFFFF#64 (.leaf1G 0x3FFFFF#22) []))).map (·.phase)
      = some (.finishing { va := 0x3FFFFFFF#64, acc := supRead, kind := .translate } [0xFFFFFFFFFFFFF#52]) := by decide
/-- R84: refused outside long mode; R82: the PDE of the same bits in it. -/
theorem test_exec_legacy :
    refusalOf (exec (.pde2MLegacy (Pde2MLegacy.ofWord 0x40000083#64))
      { walkingAt cfg52 0#64 (.table .pd 0x3000#52) [] with longMode := false }) = some .legacyMode ∧
    (nextOf (exec (.pde2MLegacy (Pde2MLegacy.ofWord 0x40000087#64)) (walkingAt cfg52 0#64 (.table .pd 0x3000#52) []))).map
      (·.phase) = some (.walking (walkOf 0#64 (.leaf2M 0x200#31))) := by decide

/-! ### Witnesses: for every obligation with hypotheses, a state and operands that meet them, one for each clause -/

def upperVa4K : Va4K :=
  { signExt := 0xFFFF#16, pml4Index := 256#9, pdpIndex := 0#9, pdIndex := 0#9, ptIndex := 0#9, offset := 0xFFF#12 }

theorem witness_DecodeInvertsEncode : (Instr.va4K upperVa4K).wf = true := by decide

theorem witness_EncodeInvertsDecode : decodeWord .pml4 0x2003#64 = .ok (.pml4e (Pml4e.ofWord 0x2003#64)) := by decide

theorem witness_AddressFormatsAgree : canonical 48 0xFFFFFFFFC0123456#64 = true := by decide

theorem witness_LegacyPdeDiffersInBits62To52 :
    decodeWord .legacyPd 0x40000083#64 = .ok (.pde2MLegacy (Pde2MLegacy.ofWord 0x40000083#64)) := by decide

theorem witness_CanonicalForm : canonical 1 0#64 = true ∧ canonical 64 0x7FFFFFFFFFFFFFFF#64 = true ∧
    canonical 48 0x0000800000000000#64 = false := by decide

theorem witness_UsableAddressRanges :
    canonical 48 0x00007FFFFFFFFFFF#64 = true ∧ canonical 48 0xFFFF800000000000#64 = true ∧
    (0x00007FFFFFFFFFFF#64).toNat ≤ 0x00007FFFFFFFFFFF ∧ 0xFFFF800000000000 ≤ (0xFFFF800000000000#64).toNat := by decide

/-- V-E6: the last entry of the highest table. -/
theorem witness_EntryAddressIsBasePlusEightTimesIndex : (0xFFFFFFFFFF000#52).extractLsb' 0 12 = 0#12 := by decide

theorem witness_EntriesAreLittleEndian : 7 < 8 ∧ (word64 memP1 0x4008).getLsbD (8 * 2 + 7) = true := by decide

theorem witness_StoredWordReadsBack : memP1.wf = true ∧ (0x1007 < 0x1008 ∨ 0x1008 + 8 ≤ 0x1007) ∧
    (0x1010 < 0x1008 ∨ 0x1008 + 8 ≤ 0x1010) := by decide

/-- The last entry of the highest table of a 40-bit space, which lies below 2^PABITS; the same of the table above, which does not;
and an entry whose last byte the run has changed, beside one of which it has changed none. -/
theorem witness_WalkReadsTheIndexedEntry :
    ((walkOf 0xFFFFFFFFFFFFFFFF#64 (.table .pt 0xFFFFFFF000#52)).stage = .table .pt 0xFFFFFFF000#52 ∧
      (0xFFFFFFF000#52).extractLsb' 0 12 = 0#12 ∧
      (0xFFFFFFF000#52).toNat + 8 * ((walkOf 0xFFFFFFFFFFFFFFFF#64 .root).va.toNat / 2 ^ 12 % 512) + 7 < 2 ^ cfg40.paBits) ∧
    ((0x10000000000#52).extractLsb' 0 12 = 0#12 ∧ 2 ^ cfg40.paBits ≤ (0x10000000000#52).toNat + 8 * 0 + 7) ∧
    ((walkOf 0#64 (.table .pml4 0x1000#52)).va.toNat / 2 ^ 39 % 512 = 0 ∧
      (0x1000 ≤ (0x1007#52).toNat ∧ (0x1007#52).toNat < 0x1000 + 8) ∧
      ¬(0x1000 ≤ (0x1008#52).toNat ∧ (0x1008#52).toNat < 0x1000 + 8)) := by decide

theorem witness_StepRunsTheAwaitedWord :
    (walkingAt cfg52 0x1234#64 (.table .pml4 0x1000#52) memP1).phase = .walking (walkOf 0x1234#64 (.table .pml4 0x1000#52)) ∧
    fetchWord (walkOf 0x1234#64 (.table .pml4 0x1000#52)) (walkingAt cfg52 0x1234#64 (.table .pml4 0x1000#52) memP1)
      = .ok 0x2003#64 ∧
    decodeWord (walkOf 0x1234#64 (.table .pml4 0x1000#52)).stage.slot 0x2003#64 = .ok (.pml4e (Pml4e.ofWord 0x2003#64)) := by
  decide

theorem witness_IdleWithoutRequestsStays : State.reset.phase = .idle ∧ State.reset.requests = [] := by decide

/-- A walk of virtual address 0 at level `l` whose entry is `e`. -/
def atEntry (c : Config) (l : Level) (e : Word) : State := walkingAt c 0#64 (.table l 0x1000#52) (image [(0x1000, e)])

/-- The state awaits the entry `e` at level `l`. -/
def awaits (s : State) (l : Level) (e : Word) : Prop :=
  s.phase = .walking (walkOf 0#64 (.table l 0x1000#52)) ∧ fetchWord (walkOf 0#64 (.table l 0x1000#52)) s = .ok e

theorem witness_EntryCheck_notPresent : awaits (atEntry cfg52 .pml4 0x2082#64) .pml4 0x2082#64 ∧
    (0x2082#64).getLsbD 0 = false := ⟨⟨rfl, by decide⟩, by decide⟩

theorem witness_EntryCheck_pml4 : awaits (atEntry cfg52 .pml4 0x2103#64) .pml4 0x2103#64 ∧ (0x2103#64).getLsbD 0 = true ∧
    (0x2103#64).extractLsb' 7 2 ≠ 0#2 := ⟨⟨rfl, by decide⟩, by decide⟩

theorem witness_EntryCheck_noPage1G : awaits (atEntry noPage1G .pdp 0x100000083#64) .pdp 0x100000083#64 ∧
    (0x100000083#64).getLsbD 0 = true ∧ (0x100000083#64).getLsbD 7 = true ∧
    (atEntry noPage1G .pdp 0x100000083#64).cfg.page1gb = false := ⟨⟨rfl, by decide⟩, by decide⟩

theorem witness_EntryCheck_pdp : awaits (atEntry cfg52 .pdp 0x40002083#64) .pdp 0x40002083#64 ∧
    (0x40002083#64).getLsbD 0 = true ∧ (0x40002083#64).getLsbD 7 = true ∧ (0x40002083#64).extractLsb' 13 17 ≠ 0#17 :=
  ⟨⟨rfl, by decide⟩, by decide⟩

theorem witness_EntryCheck_pd : awaits (atEntry cfg52 .pd 0x202083#64) .pd 0x202083#64 ∧ (0x202083#64).getLsbD 0 = true ∧
    (0x202083#64).getLsbD 7 = true ∧ (0x202083#64).extractLsb' 13 8 ≠ 0#8 := ⟨⟨rfl, by decide⟩, by decide⟩

/-- V-X8: the lowest base beyond PABITS = 40. -/
theorem witness_EntryCheck_beyond : awaits (atEntry cfg40 .pt 0x10000000003#64) .pt 0x10000000003#64 ∧
    (0x10000000003#64).getLsbD 0 = true ∧
    2 ^ (atEntry cfg40 .pt 0x10000000003#64).cfg.paBits ≤ ((0x10000000003#64).extractLsb' 0 52).toNat :=
  ⟨⟨rfl, by decide⟩, by decide⟩

/-- V-X9: the highest base below it. -/
theorem witness_EntryCheck_passes : awaits (atEntry cfg40 .pt 0xFFFFFFF003#64) .pt 0xFFFFFFF003#64 ∧
    (0xFFFFFFF003#64).getLsbD 0 = true ∧
    ((0xFFFFFFF003#64).extractLsb' 0 52).toNat < 2 ^ (atEntry cfg40 .pt 0xFFFFFFF003#64).cfg.paBits :=
  ⟨⟨rfl, by decide⟩, by decide⟩

theorem witness_PdePageSizeBitSelects :
    (awaits (atEntry cfg52 .pd 0x4003#64) .pd 0x4003#64 ∧ (0x4003#64).getLsbD 7 = false ∧
      ∃ t, step (atEntry cfg52 .pd 0x4003#64) = .next t) ∧
    (awaits (atEntry cfg52 .pd 0x200083#64) .pd 0x200083#64 ∧ (0x200083#64).getLsbD 7 = true ∧
      ∃ t, step (atEntry cfg52 .pd 0x200083#64) = .next t) ∧
    (∃ t, step (atEntry cfg52 .pt 0x5083#64) = .next t) :=
  ⟨⟨⟨rfl, by decide⟩, rfl, _, rfl⟩, ⟨⟨rfl, by decide⟩, rfl, _, rfl⟩, _, rfl⟩

theorem witness_PseIsIgnored : decodeWord .pd 0x4003#64 = .ok (.pdePt (PdePt.ofWord 0x4003#64)) ∧
    decodeWord .pd 0x200083#64 = .ok (.pde2M (Pde2M.ofWord 0x200083#64)) := by decide

/-- The premises of CR3.LM's completion; the highest base is V-R3. -/
theorem witness_Cr3RowGivesThePml4Base :
    (walkingAt cfg52 0x00007FFFFFFFFFFF#64 .root []).phase = .walking (walkOf 0x00007FFFFFFFFFFF#64 .root) ∧
    (walkOf 0x00007FFFFFFFFFFF#64 .root).stage = .root ∧
    (walkingAt cfg52 0x00007FFFFFFFFFFF#64 .root []).longMode = true ∧
    (walkingAt cfg52 0x00007FFFFFFFFFFF#64 .root []).cr4Pae = true ∧
    (walkingAt cfg52 0x00007FFFFFFFFFFF#64 .root []).cfg.vaBits = 48 ∧
    (0xFFFFFFFFFF#40).toNat * 4096 < 2 ^ cfg52.paBits ∧
    canonical 48 (walkOf 0x00007FFFFFFFFFFF#64 .root).va = true := by decide

/-- The premises of the six entry rows and the legacy row: at each level a walk, and the highest base below 2^PABITS. -/
theorem witness_entryRows :
    (∀ l : Level, l = .pml4 ∨ l = .pdp ∨ l = .pd ∨ l = .pt →
      (walkingAt cfg40 0#64 (.table l 0x1000#52) []).phase = .walking (walkOf 0#64 (.table l 0x1000#52)) ∧
      (walkOf 0#64 (.table l 0x1000#52)).stage = .table l 0x1000#52 ∧
      (walkingAt cfg40 0#64 (.table l 0x1000#52) []).longMode = true) ∧
    (0xFFFFFFF#40).toNat * 2 ^ 12 < 2 ^ cfg40.paBits ∧ (0x7FFFF#31).toNat * 2 ^ 21 < 2 ^ cfg40.paBits ∧
    (0x3FF#22).toNat * 2 ^ 30 < 2 ^ cfg40.paBits ∧ cfg40.page1gb = true := by
  refine ⟨fun l _ => ⟨rfl, rfl, rfl⟩, by decide⟩

/-- The premises of the three VA rows: the last byte of a 40-bit space in each page size. -/
theorem witness_AddressRowsFormThePhysicalAddress :
    permits cfg40.permCheck supRead noEntries = true ∧
    (walkingAt cfg40 0xFFF#64 (.leaf4K 0xFFFFFFF#40) []).phase = .walking (walkOf 0xFFF#64 (.leaf4K 0xFFFFFFF#40)) ∧
    (0xFFFFFFF#40).toNat * 2 ^ 12 + (0xFFF#12).toNat < 2 ^ cfg40.paBits ∧
    (walkingAt cfg40 0x1FFFFF#64 (.leaf2M 0x7FFFF#31) []).phase = .walking (walkOf 0x1FFFFF#64 (.leaf2M 0x7FFFF#31)) ∧
    (0x7FFFF#31).toNat * 2 ^ 21 + (0x1FFFFF#21).toNat < 2 ^ cfg40.paBits ∧
    (walkingAt cfg40 0x3FFFFFFF#64 (.leaf1G 0x3FF#22) []).phase = .walking (walkOf 0x3FFFFFFF#64 (.leaf1G 0x3FF#22)) ∧
    (0x3FF#22).toNat * 2 ^ 30 + (0x3FFFFFFF#30).toNat < 2 ^ cfg40.paBits := by decide

theorem witness_LegacyModeNotExecuted : State.reset.longMode = false ∧
    ({ State.reset with requests := [translateRequest 0x1234#64 supRead] } : State).phase = .idle := by decide

/-- A row of each kind completes. -/
theorem witness_RowsFrame :
    (∃ t, exec (.va4K (Va4K.ofWord 0x1234#64)) (walkingAt cfg52 0x1234#64 (.leaf4K 1#40) []) = .next t) ∧
    (∃ t, exec (.va2M (Va2M.ofWord 0x1234#64)) (walkingAt cfg52 0x1234#64 (.leaf2M 1#31) []) = .next t) ∧
    (∃ t, exec (.va1G (Va1G.ofWord 0x1234#64)) (walkingAt cfg52 0x1234#64 (.leaf1G 1#22) []) = .next t) ∧
    (∃ t, exec (.cr3Lm (Cr3Lm.ofWord 0x1018#64)) (walkingAt cfg52 0x1234#64 .root []) = .next t) ∧
    (∃ t, exec (.pml4e (Pml4e.ofWord 0x2003#64)) (walkingAt cfg52 0x1234#64 (.table .pml4 0x1000#52) []) = .next t) ∧
    (∃ t, exec (.pdpePd (PdpePd.ofWord 0x3003#64)) (walkingAt cfg52 0x1234#64 (.table .pdp 0x2000#52) []) = .next t) ∧
    (∃ t, exec (.pdpe1G (Pdpe1G.ofWord 0x40000083#64)) (walkingAt cfg52 0x1234#64 (.table .pdp 0x2000#52) []) = .next t) ∧
    (∃ t, exec (.pdePt (PdePt.ofWord 0x4003#64)) (walkingAt cfg52 0x1234#64 (.table .pd 0x3000#52) []) = .next t) ∧
    (∃ t, exec (.pde2M (Pde2M.ofWord 0x200083#64)) (walkingAt cfg52 0x1234#64 (.table .pd 0x3000#52) []) = .next t) ∧
    (∃ t, exec (.pte (Pte.ofWord 0x5003#64)) (walkingAt cfg52 0x1234#64 (.table .pt 0x4000#52) []) = .next t) ∧
    (∃ t, exec (.pde2MLegacy (Pde2MLegacy.ofWord 0x200083#64)) (walkingAt cfg52 0x1234#64 (.table .pd 0x3000#52) [])
      = .next t) :=
  ⟨⟨_, rfl⟩, ⟨_, rfl⟩, ⟨_, rfl⟩, ⟨_, rfl⟩, ⟨_, rfl⟩, ⟨_, rfl⟩, ⟨_, rfl⟩, ⟨_, rfl⟩, ⟨_, rfl⟩, ⟨_, rfl⟩, ⟨_, rfl⟩⟩

/-- A user-mode walk whose entries had U/S = 0, under the strict PermCheck, in each ending. -/
def deniedAt (stage : Stage) : State :=
  { launched strict52 [] [] with
    phase := .walking { walkOf 0#64 stage with
      ref := { va := 0#64, acc := userWrite, kind := .translate }
      attr := { writable := true, user := false, noexec := false } } }

theorem witness_DeniedAccessRaisesPageFault :
    (∀ stage : Stage, ∃ w : Walk, (deniedAt stage).phase = .walking w ∧ w.stage = stage ∧
      permits (deniedAt stage).cfg.permCheck w.ref.acc w.attr = false) := fun _ => ⟨_, rfl, rfl, rfl⟩

theorem witness_AttributesAreAccumulated : (0x7#64).getLsbD 1 = true ∧ (0xFFF0000000005003#64).getLsbD 63 = true := by decide

theorem witness_OneGbytePdpeRefusedWithoutSupport : awaits (atEntry noPage1G .pdp 0x40000083#64) .pdp 0x40000083#64 ∧
    (atEntry noPage1G .pdp 0x40000083#64).cfg.page1gb = false ∧ (0x40000083#64).getLsbD 0 = true ∧
    (0x40000083#64).getLsbD 7 = true := ⟨⟨rfl, by decide⟩, by decide⟩

/-- The lowest bases beyond PABITS = 40, each in a walk at its level (in long mode, with PAGE1GB), or in its ending with an access
that is allowed. -/
theorem witness_AddressesBeyondPabitsRefused :
    (∀ stage : Stage, (walkingAt cfg40 0#64 stage []).phase = .walking (walkOf 0#64 stage) ∧
      (walkingAt cfg40 0#64 stage []).longMode = true ∧ (walkingAt cfg40 0#64 stage []).cfg.page1gb = true ∧
      permits (walkingAt cfg40 0#64 stage []).cfg.permCheck supRead noEntries = true) ∧
    2 ^ cfg40.paBits ≤ (0x10000000#40).toNat * 2 ^ 12 ∧ 2 ^ cfg40.paBits ≤ (0x80000#31).toNat * 2 ^ 21 ∧
    2 ^ cfg40.paBits ≤ (0x400#22).toNat * 2 ^ 30 := ⟨fun _ => ⟨rfl, rfl, rfl, rfl⟩, by decide⟩

/-- A reference that meets the precondition, ends at the highest address of the lower half, and is canonical in every byte. -/
theorem witness_PreconditionOfAReference_holds :
    precondition (launched cfg52 memP1 [memReadRequest 0x00007FFFFFFFFFF8#64 8 supRead]) = .ok () ∧
    (0x1000#64).extractLsb' 52 12 = 0#12 ∧ (0x1000#64).extractLsb' 5 7 = 0#7 ∧ (0x1000#64).extractLsb' 0 3 = 0#3 ∧
    ((0x1000#64).extractLsb' 12 40).toNat * 4096 < 2 ^ cfg52.paBits ∧
    (∀ k, k < 8 →
      canonical 48 (Reference.byteVa { va := 0x00007FFFFFFFFFF8#64, acc := supRead, kind := .read 8 } k) = true) := by
  decide

/-- V-X11: long mode off; V-R4: a reserved bit; V-R7: a base bit beyond PABITS. -/
theorem witness_PreconditionOfAReference_fails :
    State.reset.longMode = false ∧ (0x1001#64).extractLsb' 0 3 ≠ 0#3 ∧
    2 ^ cfg40.paBits ≤ ((0x10000001000#64).extractLsb' 12 40).toNat * 4096 := by decide

/-- V-C8, and the same reference on the stack. -/
theorem witness_NonCanonicalReferenceRaises :
    precondition (launched cfg52 memP1 []) = .ok () ∧ (0x00007FFFFFFFFFF9#64).toNat + 8 - 1 < 2 ^ 64 ∧
    canonical 48 (Reference.byteVa { va := 0x00007FFFFFFFFFF9#64, acc := supRead, kind := .read 8 } 7) = false ∧
    canonical 48 (Reference.byteVa { va := 0x00007FFFFFFFFFF9#64, acc := stackRead, kind := .read 8 } 7) = false := by decide

/-- V-C9, at the first length that wraps. -/
theorem witness_WrappingReferenceRefused :
    precondition (launched cfg52 memP1 []) = .ok () ∧ 2 ^ 64 ≤ (0xFFFFFFFFFFFFFFFC#64).toNat + 5 - 1 := by decide

/-- The four states of ActivationNeedsPae and the two of PaeBeforeLongMode. -/
theorem witness_ActivationNeedsPae :
    (State.reset.phase = .idle ∧ State.reset.cr4Pae = false ∧ State.reset.longMode = false ∧ State.reset.started = false) ∧
    ((launched cfg52 [] []).cr4Pae = true ∧ (launched cfg52 [] []).longMode = true) ∧
    (let s : State := { State.reset with cr4Pae := true, started := true }
     s.phase = .idle ∧ s.cr4Pae = true ∧ s.longMode = false ∧ s.started = true) ∧
    (let s : State := { State.reset with cr4Pae := true }
     s.phase = .idle ∧ s.cr4Pae = true ∧ s.longMode = false ∧ s.started = false) := by decide

/-- V-R5, V-R7, V-R3 before the first Translate, and after it another value and CR3's own. -/
theorem witness_Cr3LoadKeepsItsDuties :
    (0x1020#64).extractLsb' 5 7 ≠ 0#7 ∧
    2 ^ cfg40.paBits ≤ ((0x10000001000#64).extractLsb' 12 40).toNat * 4096 ∧
    ((0xFFFFFFFFFF000#64).extractLsb' 12 40).toNat * 4096 < 2 ^ cfg52.paBits ∧
    (launched cfg52 [] [.writeCr3 0xFFFFFFFFFF000#64]).phase = .idle ∧
    (launched cfg52 [] [.writeCr3 0xFFFFFFFFFF000#64]).started = false ∧
    ({ launched cfg52 [] [.writeCr3 0x1000#64] with started := true } : State).started = true ∧
    0x1000#64 = ({ launched cfg52 [] [.writeCr3 0x1000#64] with started := true } : State).cr3 ∧
    (0xFFFFFFFFFF000#64) ≠ (launched cfg52 [] []).cr3 := by decide

/-- P1's PML4E alone, as listed bytes. -/
def memEntry : Memory := [(0x1000, 0x03#8), (0x1001, 0x20#8)]

/-- The last byte of a 40-bit space, the first beyond it, no byte; and a store of three bytes, two of them those held in an entry
read and one beside it. -/
theorem witness_PhysicalAccess :
    memEntry.wf = true ∧ (0xFFFFFFFFFF#52).toNat + 1 - 1 < 2 ^ cfg40.paBits ∧
    2 ^ cfg40.paBits ≤ (0xFFFFFFFFFF#52).toNat + 2 - 1 ∧ (0x10000000000#52).toNat + 0 - 1 < 2 ^ cfg40.paBits ∧
    (∀ k (h : k < [0#8, 0#8, 9#8].length), ∀ e ∈ ([0x1000#52] : List PAddr), e.toNat ≤ (0x1006#52).toNat + k →
      (0x1006#52).toNat + k < e.toNat + 8 → memEntry.read ((0x1006#52).toNat + k) = [0#8, 0#8, 9#8][k]) ∧
    bytesToChange memEntry ((physRange 0x1006#52 3).zip [0#8, 0#8, 9#8]) = [0x1008#52] := by
  refine ⟨by decide, by decide, by decide, by decide, fun k h e he _ h2 => ?_, by decide⟩
  simp only [List.mem_singleton] at he
  subst he
  have : k = 0 ∨ k = 1 := by simp at h2; omega
  rcases this with rfl | rfl <;> rfl

theorem witness_TranslateAndReadAnswer :
    (ended { va := 0#64, acc := supRead, kind := .translate } [0xABC234#52] memEntry).phase
      = .finishing { va := 0#64, acc := supRead, kind := .translate } [0xABC234#52] ∧
    (ended { va := 0#64, acc := supRead, kind := .read 2 } [0x1000#52, 0x1001#52] memEntry).phase
      = .finishing { va := 0#64, acc := supRead, kind := .read 2 } [0x1000#52, 0x1001#52] := by decide

/-- A store of three bytes: one beside an entry read, one held in it already, and one in another page. -/
theorem witness_WriteStoresItsBytes :
    let s : State := { ended { va := 0#64, acc := userWrite, kind := .write [1#8, 3#8, 2#8] }
      [0x1008#52, 0x1000#52, 0x5000#52] memEntry with entriesRead := [0x1000#52] }
    s.phase = .finishing { va := 0#64, acc := userWrite, kind := .write [1#8, 3#8, 2#8] } [0x1008#52, 0x1000#52, 0x5000#52] ∧
    s.mem.wf = true ∧
    (∀ c ∈ [0x1008#52, 0x1000#52, 0x5000#52].zip [1#8, 3#8, 2#8], ∀ e ∈ s.entriesRead, inEntry e c.1 = true →
      s.mem.read c.1.toNat = c.2) ∧ [0x1008#52, 0x1000#52, 0x5000#52].Nodup :=
  ⟨rfl, by decide, by simp [inEntry, ended, launched, memEntry, Memory.read], by decide⟩

/-- The last byte of an entry is changed, by a MemWrite and as the second byte of a PhysWrite; and an entry with such a byte is
read. -/
theorem witness_ChangedTablesRefused :
    (let s : State := { ended { va := 0#64, acc := userWrite, kind := .write [1#8] } [0x1007#52] memEntry with
      entriesRead := [0x1000#52] }
     s.phase = .finishing { va := 0#64, acc := userWrite, kind := .write [1#8] } [0x1007#52] ∧
     (∃ c ∈ [0x1007#52].zip [1#8], ∃ e ∈ s.entriesRead, inEntry e c.1 = true ∧ s.mem.read c.1.toNat ≠ c.2)) ∧
    (let s : State := { launched cfg52 memEntry [.physWrite 0x1006#52 [0#8, 1#8]] with entriesRead := [0x1000#52] }
     s.phase = .idle ∧ (0x1006#52).toNat + 2 - 1 < 2 ^ s.cfg.paBits ∧
     (∃ (k : Nat) (h : k < [0#8, 1#8].length), ∃ e ∈ s.entriesRead, e.toNat ≤ (0x1006#52).toNat + k ∧
       (0x1006#52).toNat + k < e.toNat + 8 ∧ s.mem.read ((0x1006#52).toNat + k) ≠ [0#8, 1#8][k])) ∧
    (let s : State := { walkingAt cfg52 0#64 (.table .pml4 0x1000#52) memEntry with changed := [0x1007#52] }
     s.phase = .walking (walkOf 0#64 (.table .pml4 0x1000#52)) ∧
     (entryAddr 0x1000#52 (tableIndex .pml4 (walkOf 0#64 (.table .pml4 0x1000#52)).va)).toNat + 7 < 2 ^ s.cfg.paBits ∧
     (∃ a ∈ s.changed, inEntry (entryAddr 0x1000#52 (tableIndex .pml4 (walkOf 0#64 (.table .pml4 0x1000#52)).va)) a = true)) :=
  ⟨⟨rfl, (0x1007#52, 1#8), by simp, 0x1000#52, by simp, by decide⟩,
   ⟨rfl, by decide, 1, by decide, 0x1000#52, by simp, by decide⟩, rfl, by decide, 0x1007#52, by simp, by decide⟩

/-- A walk under way meets the invariant and steps. -/
theorem witness_StepKeepsInvariant :
    (walkingAt cfg52 0x1234#64 (.table .pml4 0x1000#52) memEntry).Inv ∧
    ∃ t, step (walkingAt cfg52 0x1234#64 (.table .pml4 0x1000#52) memEntry) = .next t :=
  ⟨⟨by decide, by decide, by decide, fun _ he => absurd he List.not_mem_nil,
    ⟨by decide, ⟨by decide, by decide⟩, by decide, fun _ he => absurd he List.not_mem_nil,
     ⟨by decide, by decide⟩, fun _ => rfl⟩⟩, ⟨_, rfl⟩⟩

theorem witness_OnlyActivationSetsLongMode :
    (∃ t, step { State.reset with cr4Pae := true, requests := [.activateLongMode] } = .next t ∧ t.longMode = true) ∧
    ({ State.reset with requests := [.activateLongMode] } : State).cr4Pae = false := ⟨⟨_, rfl, rfl⟩, rfl⟩

theorem witness_ControlStateConstantInARun :
    (walkingAt cfg52 0x1234#64 .root memEntry).started = true ∧
    ∃ t, step (walkingAt cfg52 0x1234#64 .root memEntry) = .next t := ⟨rfl, ⟨_, rfl⟩⟩

/-- A run that has read an entry. -/
theorem witness_TablesConstantInARun :
    (walkingAt cfg52 0x1234#64 .root memEntry).entriesRead = [] ∧ (walkingAt cfg52 0x1234#64 .root memEntry).changed = [] ∧
    ∃ t, Reaches (walkingAt cfg52 0x1234#64 .root memEntry) t ∧ 0x1000#52 ∈ t.entriesRead :=
  ⟨rfl, rfl, _, .step (.step .start rfl) rfl, by decide⟩

theorem witness_OnlyStoresChangeMemory :
    (∃ t, step (walkingAt cfg52 0x1234#64 .root memEntry) = .next t) ∧
    (∃ t, step (ended { va := 0#64, acc := userWrite, kind := .write [1#8] } [0x5000#52] []) = .next t ∧
      t.mem.read 0x5000 ≠ Memory.read [] 0x5000) ∧
    (∃ t, step (launched cfg52 [] [.physWrite 0x5000#52 [1#8]]) = .next t ∧ t.mem.read 0x5000 ≠ Memory.read [] 0x5000) :=
  ⟨⟨_, rfl⟩, ⟨_, rfl, by decide⟩, ⟨_, rfl, by decide⟩⟩

/-- V-R1 and V-R2. -/
theorem witness_CachingBitsOfCr3Ignored (i : Nat) (h3 : i ≠ 3) (h4 : i ≠ 4) :
    (0x1018#64).getLsbD i = (launched cfg52 memP1 []).cr3.getLsbD i := by
  by_cases h : i < 64
  · interval_cases i <;> first | rfl | contradiction
  · simp [BitVec.getLsbD_of_ge, Nat.le_of_not_lt h]

/-- P1, and a memory that holds one more byte. -/
theorem witness_TranslationDependsOnItsEntries :
    (translateVa (launched cfg52 memP1 []) 0x1234#64 supRead).map (·.reads)
      = .ok [0x1000#52, 0x2000#52, 0x3000#52, 0x4008#52] ∧
    memP1.write 0x5000 1#8 ≠ memP1 ∧
    (∀ a ∈ ([0x1000#52, 0x2000#52, 0x3000#52, 0x4008#52] : List PAddr),
      word64 (memP1.write 0x5000 1#8) a.toNat = word64 memP1 a.toNat) := by
  refine ⟨by decide, by decide, fun a ha => ?_⟩
  simp only [List.mem_cons, List.not_mem_nil, or_false] at ha
  rcases ha with rfl | rfl | rfl | rfl <;> decide

/-- One translation of each page size, and one exception: the premises of TranslationShape and MachinePerformsTranslate. -/
theorem witness_translations :
    (translateVa (launched cfg52 memP1 [translateRequest 0x1234#64 supRead]) 0x1234#64 supRead).map (·.page) = .ok .page4K ∧
    (translateVa (launched cfg52 memP2 [translateRequest 0x402345#64 supRead]) 0x402345#64 supRead).map (·.page)
      = .ok .page2M ∧
    (translateVa (launched cfg52 memP3 [translateRequest 0xFFFFFFFFFFFFFFFF#64 supRead]) 0xFFFFFFFFFFFFFFFF#64 supRead).map
      (·.page) = .ok .page1G ∧
    translateVa (launched cfg52 memP1 [translateRequest 0x2000#64 supRead]) 0x2000#64 supRead
      = .error (.fault (.pageNotPresent 0x2000#64 supRead .pt)) ∧
    (launched cfg52 memP1 [translateRequest 0x1234#64 supRead]).phase = .idle := by decide

/-- A MemWrite in the queue of an idle state. -/
theorem witness_MachinePerformsReferences :
    (launched cfg52 memP1 [memWriteRequest 0x1234#64 2 0x0102#16 userWrite]).phase = .idle ∧
    (launched cfg52 memP1 [memWriteRequest 0x1234#64 2 0x0102#16 userWrite]).requests
      = [.reference { va := 0x1234#64, acc := userWrite, kind := .write [0x02#8, 0x01#8] }] := by decide

theorem witness_SettingPae :
    (State.reset.phase = .idle ∧ State.reset.started = false ∧ State.reset.cr4Pae = false) ∧
    (let s : State := { launched cfg52 [] [.enablePae] with started := true }
     s.phase = .idle ∧ s.started = true ∧ s.cr4Pae = true) ∧
    (let s : State := { State.reset with started := true, requests := [.enablePae] }
     s.phase = .idle ∧ s.started = true ∧ s.cr4Pae = false) := by decide

theorem witness_ReferenceOfNoByte :
    (launched cfg52 [] [memReadRequest 0x0000800000000000#64 0 supRead]).phase = .idle ∧
    precondition (launched cfg52 [] [memReadRequest 0x0000800000000000#64 0 supRead]) = .ok () ∧
    (launched cfg52 [] [memWriteRequest 0#64 0 0#0 supRead]).requests
      = [.reference { va := 0#64, acc := supRead, kind := .write [] }] := by decide

/-- A state in which a byte beside an entry read has been changed meets the record and steps. -/
theorem witness_StepKeepsRunRecord :
    let s : State := { walkingAt cfg52 0#64 .root (memEntry.write 0x1008 1#8) with
      entriesRead := [0x1000#52], changed := [0x1008#52] }
    s.RunRecord memEntry ∧ ∃ t, step s = .next t :=
  ⟨⟨fun a ha => ⟨0x1008#52, by simp, by
      by_contra hne
      exact ha (Memory.read_write_other memEntry 1#8 (Ne.symm hne))⟩, by simp [inEntry]⟩, _, rfl⟩

theorem witness_LaunchMeetsRunRecord : (launched cfg52 memEntry []).entriesRead = [] ∧
    (launched cfg52 memEntry []).changed = [] := by decide

/-- The words of a 1-Gbyte, a 2-Mbyte and a 4-Kbyte walk (P3, P2, P1), each sound, where they stand. -/
theorem witness_TranslateFollowsTheTables :
    (precondition (launched cfg52 memP1 []) = .ok () ∧ (launched cfg52 memP1 []).changed = [] ∧
      canonical 48 0xFFFFFFFFC0123456#64 = true ∧ canonical 48 0x402345#64 = true ∧ canonical 48 0x1234#64 = true) ∧
    (word64 memP3 0x1FF8 = 0x2003#64 ∧ word64 memP3 0x2FF8 = 0x100000083#64 ∧ word64 memP2 0x3010 = 0x40000083#64 ∧
      word64 memP1 0x4008 = 0xABC003#64) ∧
    entrySound cfg52 .pml4 0x2003#64 ∧ entrySound cfg52 .pdp 0x100000083#64 ∧ entrySound cfg52 .pdp 0x3003#64 ∧
    entrySound cfg52 .pd 0x40000083#64 ∧ entrySound cfg52 .pd 0x4003#64 ∧ entrySound cfg52 .pt 0xABC003#64 ∧
    permits cfg52.permCheck supRead (attrOf [0x2003#64, 0x100000083#64]) = true :=
  ⟨⟨rfl, rfl, by decide⟩, by decide, by unfold entrySound; decide, by unfold entrySound; decide, by unfold entrySound; decide,
   by unfold entrySound; decide, by unfold entrySound; decide, by unfold entrySound; decide, rfl⟩

/-- R104: a byte that an entry read already holds is stored again, and nothing is recorded. -/
theorem test_store_same_byte :
    (nextOf (step { ended { va := 0#64, acc := userWrite, kind := .write [3#8] } [0x1000#52] memEntry with
      entriesRead := [0x1000#52] })).map (fun t => (t.changed, t.results)) = some ([], [.bytesWritten]) := by decide

end Sys2Proof.Tests
end

section
/-! PROOFS. A word as the concatenation of its fields: when `encode` gives it, and what `decodeWord` reads in it. -/

namespace Sys2Proof

/-- Bits `b` and up of the word `w` hold the field `x`. -/
def FieldAt (w : Word) (b : Nat) {n : Nat} (x : BitVec n) : Prop := w.extractLsb' b n = x

theorem fieldAt_append (w : Word) (b : Nat) {m n : Nat} (x : BitVec m) (y : BitVec n) :
    FieldAt w b (x ++ y) ↔ FieldAt w (b + n) x ∧ FieldAt w b y := by
  unfold FieldAt
  rw [← BitVec.extractLsb'_append_extractLsb'_eq_extractLsb' (len₂ := m) rfl]
  constructor
  · intro h
    have hx := congrArg (BitVec.extractLsb' n m) h
    have hy := congrArg (BitVec.extractLsb' 0 n) h
    rw [BitVec.extractLsb'_append_eq_left, BitVec.extractLsb'_append_eq_left] at hx
    rw [BitVec.extractLsb'_append_eq_right, BitVec.extractLsb'_append_eq_right] at hy
    exact ⟨hx, hy⟩
  · rintro ⟨rfl, rfl⟩
    rfl

theorem fieldAt_zero_iff (w x : Word) : FieldAt w 0 x ↔ x = w := by
  rw [FieldAt, BitVec.extractLsb'_eq_self, eq_comm]

theorem getLsbD_eq_iff_extractLsb' (w : Word) (b : Nat) (c : Bool) : w.getLsbD b = c ↔ w.extractLsb' b 1 = bit c := by
  rw [BitVec.getLsbD_eq_extractLsb']
  generalize w.extractLsb' b 1 = x
  revert x c
  decide

/-- The word has the fixed bits of the value's row (R47 to R52, R54, R81, R12) and, in every other bit, the value's fields. -/
def Instr.Fits (w : Word) : Instr → Prop
  | .va4K f => Va4K.ofWord w = f
  | .va2M f => Va2M.ofWord w = f
  | .va1G f => Va1G.ofWord w = f
  | .cr3Lm f =>
    (w.extractLsb' 52 12 = 0#12 ∧ w.extractLsb' 5 7 = 0#7 ∧ w.extractLsb' 0 3 = 0#3) ∧ Cr3Lm.ofWord w = f
  | .pml4e f => (w.getLsbD 0 = true ∧ w.extractLsb' 7 2 = 0#2) ∧ Pml4e.ofWord w = f
  | .pdpePd f => (w.getLsbD 0 = true ∧ w.getLsbD 7 = false) ∧ PdpePd.ofWord w = f
  | .pdpe1G f =>
    (w.getLsbD 0 = true ∧ w.getLsbD 7 = true ∧ w.extractLsb' 13 17 = 0#17) ∧ Pdpe1G.ofWord w = f
  | .pdePt f => (w.getLsbD 0 = true ∧ w.getLsbD 7 = false) ∧ PdePt.ofWord w = f
  | .pde2M f => (w.getLsbD 0 = true ∧ w.getLsbD 7 = true ∧ w.extractLsb' 13 8 = 0#8) ∧ Pde2M.ofWord w = f
  | .pte f => w.getLsbD 0 = true ∧ Pte.ofWord w = f
  | .pde2MLegacy f =>
    (w.getLsbD 0 = true ∧ w.getLsbD 7 = true ∧ w.extractLsb' 52 11 = 0#11 ∧ w.extractLsb' 13 8 = 0#8) ∧
      Pde2MLegacy.ofWord w = f

/-- Both sides say, field by field, what the bits of the word are. -/
theorem encode_eq_iff_fits (i : Instr) (w : Word) : encode i = w ↔ i.Fits w := by
  rw [← fieldAt_zero_iff]
  obtain ⟨⟨⟩⟩ | ⟨⟨⟩⟩ | ⟨⟨⟩⟩ | ⟨⟨⟩⟩ | ⟨⟨⟩⟩ | ⟨⟨⟩⟩ | ⟨⟨⟩⟩ | ⟨⟨⟩⟩ | ⟨⟨⟩⟩ | ⟨⟨⟩⟩ | ⟨⟨⟩⟩ := i
  all_goals
    rw [encode]
    simp only [fieldAt_append]
    simp only [FieldAt, Nat.reduceAdd, Instr.Fits, Va4K.ofWord, Va2M.ofWord, Va1G.ofWord, Cr3Lm.ofWord, Pml4e.ofWord,
      PdpePd.ofWord, Pdpe1G.ofWord, PdePt.ofWord, Pde2M.ofWord, Pte.ofWord, Pde2MLegacy.ofWord, Va4K.mk.injEq,
      Va2M.mk.injEq, Va1G.mk.injEq, Cr3Lm.mk.injEq, Pml4e.mk.injEq, PdpePd.mk.injEq, Pdpe1G.mk.injEq, PdePt.mk.injEq,
      Pde2M.mk.injEq, Pte.mk.injEq, Pde2MLegacy.mk.injEq, getLsbD_eq_iff_extractLsb',
      show bit true = 1#1 from rfl, show bit false = 0#1 from rfl]
    exact ⟨fun h => by simp only [h, and_self], fun h => by simp only [h, and_self]⟩

/-- Canonical form by the sign-extension field and bit 47 (R22). -/
theorem canonical48_iff_fields (w : Word) : canonical48 w = true ↔
    w.extractLsb' 48 16 = 0#16 ∧ w.getLsbD 47 = false ∨
      w.extractLsb' 48 16 = BitVec.allOnes 16 ∧ w.getLsbD 47 = true := by
  have hzero : w.extractLsb' 47 17 = 0#17 ↔ w.extractLsb' 48 16 = 0#16 ∧ w.extractLsb' 47 1 = bit false :=
    fieldAt_append w 47 0#16 (bit false)
  have hones : w.extractLsb' 47 17 = BitVec.allOnes 17 ↔
      w.extractLsb' 48 16 = BitVec.allOnes 16 ∧ w.extractLsb' 47 1 = bit true :=
    fieldAt_append w 47 (BitVec.allOnes 16) (bit true)
  rw [canonical48, Bool.or_eq_true, beq_iff_eq, beq_iff_eq, hzero, hones, getLsbD_eq_iff_extractLsb',
    getLsbD_eq_iff_extractLsb']

/-- Sign extension of bit 47 through bits 63:48 is canonical form (R22, R40 to R42). -/
theorem signExtOk_fields (w : Word) : signExtOk (w.extractLsb' 48 16) (w.extractLsb' 39 9) = canonical48 w := by
  have hbit : (w.extractLsb' 39 9).getLsbD 8 = w.getLsbD 47 := by simp
  rw [Bool.eq_iff_iff, canonical48_iff_fields, signExtOk, beq_iff_eq, hbit]
  cases w.getLsbD 47
  · simp only [and_true, Bool.false_eq_true, and_false, or_false]
    rfl
  · simp only [Bool.true_eq_false, and_false, and_true, false_or]
    rfl

theorem cr3ReservedClear_iff (w : Word) :
    cr3ReservedClear w = true ↔ w.extractLsb' 52 12 = 0#12 ∧ w.extractLsb' 5 7 = 0#7 ∧ w.extractLsb' 0 3 = 0#3 := by
  simp [cr3ReservedClear, and_assoc]

theorem slot_of_decodeWord {slot : Slot} {w : Word} {i : Instr} (h : decodeWord slot w = .ok i) : i.slot = slot := by
  cases slot <;> (simp only [decodeWord] at h; split_ifs at h <;> cases h <;> rfl)

/-- A word is read as `i` in `i`'s slot exactly when `i` is legal and the word is `i`'s. -/
theorem decodeWord_slot_iff (i : Instr) (w : Word) : decodeWord i.slot w = .ok i ↔ i.wf = true ∧ encode i = w := by
  rw [encode_eq_iff_fits]
  cases i with
  | va4K f =>
    simp only [Instr.slot, decodeWord, Instr.wf, Instr.Fits, ite_eq_iff, Except.ok.injEq, Instr.va4K.injEq, reduceCtorEq,
      and_false, or_false]
    exact and_congr_left fun hf => by rw [← hf, ← signExtOk_fields]; rfl
  | va2M f =>
    simp only [Instr.slot, decodeWord, Instr.wf, Instr.Fits, ite_eq_iff, Except.ok.injEq, Instr.va2M.injEq, reduceCtorEq,
      and_false, or_false]
    exact and_congr_left fun hf => by rw [← hf, ← signExtOk_fields]; rfl
  | va1G f =>
    simp only [Instr.slot, decodeWord, Instr.wf, Instr.Fits, ite_eq_iff, Except.ok.injEq, Instr.va1G.injEq, reduceCtorEq,
      and_false, or_false]
    exact and_congr_left fun hf => by rw [← hf, ← signExtOk_fields]; rfl
  | _ => simp [Instr.slot, decodeWord, Instr.wf, Instr.Fits, ite_eq_iff, cr3ReservedClear_iff, and_assoc]

/-- The eight bytes of a word, little-endian, are the word (R31). -/
theorem decode_wordBytes (slot : Slot) (w : Word) : decode slot (wordBytes w) = decodeWord slot w := by
  have hw : w.extractLsb' 56 8 ++ w.extractLsb' 48 8 ++ w.extractLsb' 40 8 ++ w.extractLsb' 32 8 ++
      w.extractLsb' 24 8 ++ w.extractLsb' 16 8 ++ w.extractLsb' 8 8 ++ w.extractLsb' 0 8 = w := by
    rw [← fieldAt_zero_iff]
    simp only [fieldAt_append]
    simp only [FieldAt, Nat.reduceAdd, and_self]
  exact congrArg (decodeWord slot) hw

/-- Settles O1: `decodeWord` reads in a value's slot exactly the value's word. -/
theorem decodeInvertsEncode : Obligations.DecodeInvertsEncode := by
  intro i hwf
  have hdecode : decodeWord i.slot (encode i) = .ok i := (decodeWord_slot_iff i _).2 ⟨hwf, rfl⟩
  exact ⟨hdecode, (decode_wordBytes _ _).trans hdecode⟩

/-- Settles O2: the same equivalence, read from the decoded value to its word. -/
theorem encodeInvertsDecode : Obligations.EncodeInvertsDecode := by
  intro slot w i h
  have hslot : i.slot = slot := slot_of_decodeWord h
  subst hslot
  obtain ⟨hwf, hword⟩ := (decodeWord_slot_iff i w).1 h
  exact ⟨hword, rfl, hwf⟩

end Sys2Proof
end

section
/-! PROOFS. The machine's invariant: the updates that keep it, then the walk, the requests and the end of a reference. -/

namespace Sys2Proof.Machine

variable {s t : State}

/-! ### Updates that keep the invariant -/

theorem beyondPabits_eq_false_iff (c : Config) (pa : PAddr) : beyondPabits c pa = false ↔ pa.toNat < 2 ^ c.paBits := by
  simp [beyondPabits]

/-- The soundness of a phase reads the parameters, the control state and `started`, and nothing else. -/
theorem Phase.inv_congr (p : Phase) (hcfg : t.cfg = s.cfg) (hcr3 : t.cr3 = s.cr3) (hpae : t.cr4Pae = s.cr4Pae)
    (hlong : t.longMode = s.longMode) (hstarted : t.started = s.started) : p.inv t ↔ p.inv s := by
  have hpre : precondition t = .ok () ↔ precondition s = .ok () := by
    rw [precondition_ok_iff, precondition_ok_iff, hcfg, hcr3, hpae, hlong]
  cases p <;> simp only [Phase.inv, hpre, hcfg, hstarted]

theorem State.Inv.transfer_of_phase (hs : s.Inv) {p : Phase} (hp : s.phase = p) : p.inv s := hp ▸ hs.transfer

theorem State.Inv.setPhase (hs : s.Inv) {p : Phase} (hp : p.inv s) : (s.setPhase p).Inv where
  memWf := hs.memWf
  memWithin := hs.memWithin
  longModePae := hs.longModePae
  tablesStable := hs.tablesStable
  transfer := (p.inv_congr rfl rfl rfl rfl rfl).2 hp

theorem State.Inv.setRequests (hs : s.Inv) (l : List Request) : (s.setRequests l).Inv where
  memWf := hs.memWf
  memWithin := hs.memWithin
  longModePae := hs.longModePae
  tablesStable := hs.tablesStable
  transfer := (s.phase.inv_congr rfl rfl rfl rfl rfl).2 hs.transfer

theorem State.Inv.respond (hs : s.Inv) (l : List Response) : (s.respond l).Inv where
  memWf := hs.memWf
  memWithin := hs.memWithin
  longModePae := hs.longModePae
  tablesStable := hs.tablesStable
  transfer := (s.phase.inv_congr rfl rfl rfl rfl rfl).2 hs.transfer

/-- Between references no transfer is in progress, so CR4.PAE may be set. -/
theorem State.Inv.setCr4Pae (hs : s.Inv) (hp : s.phase = .idle) : s.setCr4Pae.Inv where
  memWf := hs.memWf
  memWithin := hs.memWithin
  longModePae := fun _ => rfl
  tablesStable := hs.tablesStable
  transfer := by rw [State.setCr4Pae_phase, hp]; trivial

theorem State.Inv.setLongMode (hs : s.Inv) (hp : s.phase = .idle) (hpae : s.cr4Pae = true) : s.setLongMode.Inv where
  memWf := hs.memWf
  memWithin := hs.memWithin
  longModePae := fun _ => hpae
  tablesStable := hs.tablesStable
  transfer := by rw [State.setLongMode_phase, hp]; trivial

theorem State.Inv.setCr3 (hs : s.Inv) (hp : s.phase = .idle) (v : Word) : (s.setCr3 v).Inv where
  memWf := hs.memWf
  memWithin := hs.memWithin
  longModePae := hs.longModePae
  tablesStable := hs.tablesStable
  transfer := by rw [State.setCr3_phase, hp]; trivial

/-- Stores below 2^PABITS that are not refused (R104). -/
theorem State.Inv.storeBytes {l : List (PAddr × Byte)} (hs : s.Inv)
    (hl : ∀ c ∈ l, c.1.toNat < 2 ^ s.cfg.paBits) (h : storeBytes l s = .ok t) : t.Inv := by
  have hframe := storeBytes_frame l h
  have hcfg : t.cfg = s.cfg := by rw [hframe]
  obtain ⟨hwf, hwithin⟩ := storeBytes_memory l _ h hl hs.memWf hs.memWithin
  exact
    { memWf := hwf
      memWithin := by rw [hcfg]; exact hwithin
      longModePae := by rw [hframe]; exact hs.longModePae
      tablesStable := storeBytes_stable l h hs.tablesStable
      transfer := by
        rw [hframe]
        exact (s.phase.inv_congr rfl rfl rfl rfl rfl).2 hs.transfer }

/-! ### The walk -/

/-- The walk reads no entry with a byte that the run's stores have changed (R104). -/
theorem fetched_entry_unchanged {w : Walk} {l : Level} {b : PAddr} {word : Word} (hstage : w.stage = .table l b)
    (hf : fetchWord w s = .ok word) : ∀ a ∈ s.changed, inEntry (entryAddr b (tableIndex l w.va)) a = false := by
  simp only [fetchWord, hstage, readEntry_ok_iff] at hf
  obtain ⟨-, hunchanged, -⟩ := hf
  intro a ha
  exact Bool.eq_false_iff.2 (List.any_eq_false.1 hunchanged a ha)

theorem State.Inv.afterEntry {w : Walk} {l : Level} {b : PAddr} {word : Word} {rw us nx : Bool} {next : Stage}
    (hs : s.Inv) (hp : s.phase = .walking w) (hstage : w.stage = .table l b) (hf : fetchWord w s = .ok word)
    (hnext : next.leads s.cfg) : (afterEntry w l b rw us nx next s).Inv := by
  obtain ⟨hpre, hchecked, hlength, hdone, -, hstarted⟩ := hs.transfer_of_phase hp
  exact
    { memWf := hs.memWf
      memWithin := hs.memWithin
      longModePae := hs.longModePae
      tablesStable := by
        intro e he a ha
        rcases List.mem_append.1 he with hold | hnew
        · exact hs.tablesStable e hold a ha
        · rw [List.mem_singleton.1 hnew]
          exact fetched_entry_unchanged hstage hf a ha
      transfer := ⟨hpre, hchecked, hlength, hdone, hnext.1, fun _ => hstarted (by simp [hstage])⟩ }

theorem State.Inv.afterByte {w : Walk} {pa : PAddr} (hs : s.Inv) (hp : s.phase = .walking w)
    (hpa : beyondPabits s.cfg pa = false) : (s.setPhase (afterByte w pa)).Inv := by
  obtain ⟨hpre, hchecked, hlength, hdone, -, -⟩ := hs.transfer_of_phase hp
  have hdone' : ∀ a ∈ w.done ++ [pa], beyondPabits s.cfg a = false := by
    intro a ha
    rcases List.mem_append.1 ha with hold | hnew
    · exact hdone a hold
    · rw [List.mem_singleton.1 hnew]
      exact hpa
  refine hs.setPhase ?_
  unfold Machine.afterByte
  split
  · next hmore => exact ⟨hpre, hchecked, by simpa using hmore, hdone', trivial, fun h => absurd rfl h⟩
  · next hlast => exact ⟨hpre, hchecked, by simp only [List.length_append, List.length_singleton]; omega, hdone'⟩

/-- The step that takes CR3 (R62). -/
theorem State.Inv.afterCr3 {w : Walk} {f : Cr3Lm} (hs : s.Inv) (hp : s.phase = .walking w)
    (hbase : beyondPabits s.cfg (f.base ++ 0#12 : PAddr) = false) :
    (s.setStarted.setPhase (.walking { w with stage := .table .pml4 (f.base ++ 0#12), attr := noEntries })).Inv := by
  obtain ⟨hpre, hchecked, hlength, hdone, -, -⟩ := hs.transfer_of_phase hp
  exact
    { memWf := hs.memWf
      memWithin := hs.memWithin
      longModePae := hs.longModePae
      tablesStable := hs.tablesStable
      transfer := ⟨hpre, hchecked, hlength, hdone, ⟨low12_append _, hbase⟩, fun _ => rfl⟩ }

theorem exec_keeps_inv {w : Walk} {word : Word} {i : Instr} (hs : s.Inv) (hp : s.phase = .walking w)
    (hf : fetchWord w s = .ok word) (h : exec i s = .next t) : t.Inv := by
  obtain ⟨w', hp', hcase⟩ := exec_next_cases h
  obtain rfl : w' = w := Phase.walking.inj (hp'.symm.trans hp)
  rcases hcase with ⟨f, -, -, -, hbase, -, rfl⟩ | ⟨l, b, rw, us, nx, next, hstage, hnext, rfl⟩ | ⟨pa, -, -, hpa, rfl⟩
  · exact hs.afterCr3 hp hbase
  · exact hs.afterEntry hp hstage hf hnext
  · exact hs.afterByte hp hpa

/-! ### Requests and the end of a reference -/

theorem firstPhase_inv {r : Reference} (h : checkReference s r = .ok ()) : (firstPhase r).inv s := by
  obtain ⟨hpre, hwraps, hcanonical⟩ := (checkReference_ok_iff s r).1 h
  by_cases hsize : r.size = 0
  · rw [firstPhase_of_none hsize]
    exact ⟨hpre, ⟨hwraps, hcanonical⟩, hsize.symm, fun _ h => absurd h List.not_mem_nil⟩
  · rw [firstPhase_of_pos hsize]
    exact ⟨hpre, ⟨hwraps, hcanonical⟩, Nat.pos_of_ne_zero hsize, fun _ h => absurd h List.not_mem_nil, trivial,
      fun h => absurd rfl h⟩

/-- A physical access that passes its check stays below 2^PABITS (R30). -/
theorem physRange_lt {c : Config} {pa a : PAddr} {n : Nat} (h : checkPhys c pa n = .ok ()) (ha : a ∈ physRange pa n) :
    a.toNat < 2 ^ c.paBits := by
  rw [checkPhys_ok_iff] at h
  obtain ⟨k, hk, rfl⟩ := List.mem_map.1 ha
  have hk' := List.mem_range.1 hk
  have hsum : (pa + BitVec.ofNat 52 k).toNat ≤ pa.toNat + k := by
    rw [BitVec.toNat_add, BitVec.toNat_ofNat, Nat.add_mod_mod]
    exact Nat.mod_le _ _
  omega

theorem takeRequest_keeps_inv (hs : s.Inv) (hp : s.phase = .idle) (h : takeRequest s = .next t) : t.Inv := by
  rcases takeRequest_next_cases h with ⟨-, rfl⟩ | ⟨r, rest, -, hcheck, rfl⟩ | ⟨rest, -, hpae, -, -, rfl⟩ |
    ⟨rest, -, -, rfl⟩ | ⟨v, rest, -, -, -, rfl⟩ | ⟨pa, n, rest, -, -, rfl⟩ | ⟨pa, bytes, rest, u, -, hphys, hstore, rfl⟩
  · exact hs
  · exact (hs.setRequests rest).setPhase (firstPhase_inv hcheck)
  · exact ((hs.setRequests rest).setLongMode hp hpae).respond _
  · exact ((hs.setRequests rest).setCr4Pae hp).respond _
  · exact ((hs.setRequests rest).setCr3 hp v).respond _
  · exact (hs.setRequests rest).respond _
  · exact ((hs.setRequests rest).storeBytes
      (fun c hc => physRange_lt hphys (List.of_mem_zip hc).1) hstore).respond _

theorem answer_keeps_inv {r : Reference} {pas : List PAddr} (hs : s.Inv)
    (hpas : ∀ pa ∈ pas, beyondPabits s.cfg pa = false) (h : answer r pas s = .ok t) : t.Inv := by
  rcases (answer_ok_iff r pas s t).1 h with ⟨-, rfl⟩ | ⟨n, -, rfl⟩ | ⟨bytes, u, -, hstore, rfl⟩
  · exact hs.respond _
  · exact hs.respond _
  · exact (hs.storeBytes
      (fun c hc => (beyondPabits_eq_false_iff _ _).1 (hpas c.1 (List.of_mem_zip hc).1)) hstore).respond _

/-- Settles O42, by the three things a step can do: take a request, run an awaited word, answer a reference. -/
theorem stepKeepsInvariant : Obligations.StepKeepsInvariant := by
  intro s t hs h
  rcases step_next_cases h with ⟨hp, hrequest⟩ | ⟨w, word, i, hp, hf, -, hexec⟩ | ⟨r, pas, hp, hanswer⟩
  · exact takeRequest_keeps_inv hs hp hrequest
  · exact exec_keeps_inv hs hp hf hexec
  · obtain ⟨-, -, -, hpas⟩ := hs.transfer_of_phase hp
    exact answer_keeps_inv (hs.setPhase (p := .idle) trivial) hpas hanswer

/-- Settles O16: nothing is listed, recorded or under way, and long mode is off. -/
theorem resetMeetsInvariant : Obligations.ResetMeetsInvariant where
  memWf := rfl
  memWithin := rfl
  longModePae := by decide
  tablesStable := fun _ he => absurd he List.not_mem_nil
  transfer := trivial

end Sys2Proof.Machine
end

section
/-! PROOFS. What a step leaves as it was: the frames of the rows, of a reference's end and of the control state. -/

namespace Sys2Proof.Machine

variable {s t : State}

/-! ### The rows -/

/-- A row that completes changes bookkeeping of the walk only. -/
theorem exec_frame {i : Instr} (h : exec i s = .next t) :
    t = { s with started := t.started, entriesRead := t.entriesRead, phase := t.phase } := by
  obtain ⟨w, -, ⟨f, -, -, -, -, -, rfl⟩ | ⟨l, b, rw, us, nx, next, -, -, rfl⟩ | ⟨pa, -, -, -, rfl⟩⟩ := exec_next_cases h <;>
    rfl

/-- An entry row that completes has used an entry of a table of its own level. -/
theorem exec_entryRow {i : Instr} {l : Level} (hi : rowLevel i = some l) (h : exec i s = .next t) :
    ∃ w b rw us nx next, s.phase = .walking w ∧ w.stage = .table l b ∧ t = afterEntry w l b rw us nx next s := by
  have huse : ∃ base rw us nx next, useEntry l base rw us nx next s = .next t := by
    cases i with
    | va4K f => cases hi
    | va2M f => cases hi
    | va1G f => cases hi
    | cr3Lm f => cases hi
    | pml4e f => cases hi; exact ⟨_, _, _, _, _, h⟩
    | pdpePd f => cases hi; exact ⟨_, _, _, _, _, h⟩
    | pdpe1G f =>
      cases hi
      simp only [exec, execPdpe1G] at h
      split at h
      · exact ⟨_, _, _, _, _, h⟩
      · cases h
    | pdePt f => cases hi; exact ⟨_, _, _, _, _, h⟩
    | pde2M f => cases hi; exact ⟨_, _, _, _, _, h⟩
    | pte f => cases hi; exact ⟨_, _, _, _, _, h⟩
    | pde2MLegacy f =>
      cases hi
      simp only [exec, execPde2MLegacy] at h
      split at h
      · exact ⟨_, _, _, _, _, h⟩
      · cases h
  obtain ⟨base, rw, us, nx, next, huse⟩ := huse
  obtain ⟨w, b, hp, hstage, -, ht⟩ := (useEntry_next_iff ..).1 huse
  exact ⟨w, b, rw, us, nx, next, hp, hstage, ht⟩

/-- A VA row that completes only moves the walk on. -/
theorem exec_vaRow {i : Instr} (hi : rowLevel i = none) (hcr3 : ∀ f, i ≠ .cr3Lm f) (h : exec i s = .next t) :
    ∃ p, t = s.setPhase p := by
  obtain ⟨w, hp, ⟨f, hf, -⟩ | ⟨l, b, rw, us, nx, next, hstage, -, -⟩ | ⟨pa, -, -, -, ht⟩⟩ := exec_next_cases h
  · exact absurd hf (hcr3 f)
  · cases i with
    | va4K f => simp [exec, execVa4K, hp, hstage] at h
    | va2M f => simp [exec, execVa2M, hp, hstage] at h
    | va1G f => simp [exec, execVa1G, hp, hstage] at h
    | cr3Lm f => exact absurd rfl (hcr3 f)
    | _ => cases hi
  · exact ⟨_, ht⟩

/-- CR3.LM marks the run as begun and moves the walk on. -/
theorem exec_cr3Row {f : Cr3Lm} (h : exec (.cr3Lm f) s = .next t) : ∃ p, t = s.setStarted.setPhase p := by
  obtain ⟨w, -, -, -, -, -, ht⟩ := (execCr3Lm_next_iff f s t).1 h
  exact ⟨_, ht⟩

/-- Only CR3.LM marks the run as begun. -/
theorem exec_started {i : Instr} (hcr3 : ∀ f, i ≠ .cr3Lm f) (h : exec i s = .next t) : t.started = s.started := by
  cases hi : rowLevel i with
  | none =>
    obtain ⟨p, rfl⟩ := exec_vaRow hi hcr3 h
    rfl
  | some l =>
    obtain ⟨w, b, rw, us, nx, next, -, -, rfl⟩ := exec_entryRow hi h
    rfl

/-- Only an entry row records a read. -/
theorem exec_entriesRead_of_no_table {i : Instr} (hi : rowLevel i = none) (h : exec i s = .next t) :
    t.entriesRead = s.entriesRead := by
  by_cases hcr3 : ∃ f, i = .cr3Lm f
  · obtain ⟨f, rfl⟩ := hcr3
    obtain ⟨p, rfl⟩ := exec_cr3Row h
    rfl
  · obtain ⟨p, rfl⟩ := exec_vaRow hi (fun f hf => hcr3 ⟨f, hf⟩) h
    rfl

/-- Settles O26: the common frame, then what each kind of row adds to the record of the walk. -/
theorem rowsFrame : Obligations.RowsFrame := by
  intro i s t h
  have hframe := exec_frame h
  refine ⟨by rw [hframe], by rw [hframe], by rw [hframe], by rw [hframe], by rw [hframe], fun a => by rw [hframe],
    by rw [hframe], by rw [hframe], by rw [hframe], fun hi => exec_entriesRead_of_no_table hi h, ?_, ?_,
    fun hcr3 => exec_started hcr3 h⟩
  · intro l hi
    obtain ⟨w, b, rw, us, nx, next, hp, hstage, rfl⟩ := exec_entryRow hi h
    exact ⟨w, b, hp, hstage, rfl⟩
  · rintro ⟨f, rfl⟩
    obtain ⟨p, rfl⟩ := exec_cr3Row h
    rfl

/-- Settles O20: the checks of CR3.LM, met one by one. -/
theorem cr3RowGivesThePml4Base : Obligations.Cr3RowGivesThePml4Base := by
  intro f s w hp hstage hlong hpae hbits hbase hcanonical
  have hbelow : beyondPabits s.cfg (f.base ++ 0#12 : PAddr) = false := by
    rw [beyondPabits_eq_false_iff, toNat_append_zero]
    exact hbase
  refine (execCr3Lm_next_iff f s _).2
    ⟨w, hp, hstage, (checkMode_ok_iff s).2 ⟨hlong, hpae, hbits⟩, hbelow, ?_, rfl⟩
  rw [hbits]
  exact hcanonical

/-! ### The end of a reference -/

/-- An answer changes memory, the list of changed bytes and the results only. -/
theorem answer_frame {r : Reference} {pas : List PAddr} (h : answer r pas s = .ok t) :
    t = { s with mem := t.mem, changed := t.changed, results := t.results } := by
  rcases (answer_ok_iff r pas s t).1 h with ⟨-, rfl⟩ | ⟨n, -, rfl⟩ | ⟨bytes, u, -, hstore, rfl⟩
  · rfl
  · rfl
  · rw [storeBytes_frame _ hstore]
    rfl

/-- Settles O46: a walk's step is a row's, and of the other steps only those that store touch memory. -/
theorem onlyStoresChangeMemory : Obligations.OnlyStoresChangeMemory := by
  constructor
  · intro s t w hp h
    rcases step_next_cases h with ⟨hp', -⟩ | ⟨w', word, i, -, -, -, hexec⟩ | ⟨r, pas, hp', -⟩
    · cases hp.symm.trans hp'
    · exact exec_frame hexec
    · cases hp.symm.trans hp'
  · rintro s t h ⟨a, ha⟩
    rcases step_next_cases h with ⟨hp, hrequest⟩ | ⟨w, word, i, -, -, -, hexec⟩ | ⟨r, pas, hp, hanswer⟩
    · rcases takeRequest_next_cases hrequest with ⟨-, rfl⟩ | ⟨r, rest, -, -, rfl⟩ | ⟨rest, -, -, -, -, rfl⟩ |
        ⟨rest, -, -, rfl⟩ | ⟨v, rest, -, -, -, rfl⟩ | ⟨pa, n, rest, -, -, rfl⟩ | ⟨pa, bytes, rest, u, hq, -, -, -⟩
      case inr.inr.inr.inr.inr.inr => exact .inr ⟨pa, bytes, rest, hp, hq⟩
      all_goals exact absurd rfl ha
    · rw [exec_frame hexec] at ha
      exact absurd rfl ha
    · rcases (answer_ok_iff r pas _ t).1 hanswer with ⟨-, rfl⟩ | ⟨n, -, rfl⟩ | ⟨bytes, u, hkind, -, -⟩
      · exact absurd rfl ha
      · exact absurd rfl ha
      · exact .inl ⟨r, pas, bytes, hp, hkind⟩

/-! ### The control state -/

/-- CR3, CR4.PAE and LongMode are as they were. -/
def SameControl (s t : State) : Prop := t.cr3 = s.cr3 ∧ t.cr4Pae = s.cr4Pae ∧ t.longMode = s.longMode

/-- What a step can do to the control state: nothing; or, between references, activate long mode, set CR4.PAE, or load CR3,
each under its conditions (R14, R16, R104). -/
theorem step_control_cases (h : step s = .next t) :
    (t.cfg = s.cfg ∧ t.cr4Pse = s.cr4Pse ∧ (s.started = true → t.started = true)) ∧
    (SameControl s t ∨
      (s.phase = .idle ∧ (∃ rest, s.requests = .activateLongMode :: rest) ∧ s.cr4Pae = true ∧ s.longMode = false ∧
        s.started = false ∧ t.longMode = true) ∨
      ((s.started = true → s.cr4Pae = true) ∧ t.cr3 = s.cr3 ∧ t.cr4Pae = true ∧ t.longMode = s.longMode) ∨
      ((s.started = true → t.cr3 = s.cr3) ∧ t.cr4Pae = s.cr4Pae ∧ t.longMode = s.longMode)) := by
  rcases step_next_cases h with ⟨hp, hrequest⟩ | ⟨w, word, i, -, -, -, hexec⟩ | ⟨r, pas, -, hanswer⟩
  · rcases takeRequest_next_cases hrequest with ⟨-, rfl⟩ | ⟨r, rest, -, -, rfl⟩ | ⟨rest, hq, hpae, hlong, hstarted, rfl⟩ |
      ⟨rest, -, hpae, rfl⟩ | ⟨v, rest, -, -, hsame, rfl⟩ | ⟨pa, n, rest, -, -, rfl⟩ | ⟨pa, bytes, rest, u, -, -, hstore, rfl⟩
    · exact ⟨⟨rfl, rfl, id⟩, .inl ⟨rfl, rfl, rfl⟩⟩
    · exact ⟨⟨rfl, rfl, id⟩, .inl ⟨rfl, rfl, rfl⟩⟩
    · exact ⟨⟨rfl, rfl, id⟩, .inr (.inl ⟨hp, ⟨rest, hq⟩, hpae, hlong, hstarted, rfl⟩)⟩
    · exact ⟨⟨rfl, rfl, id⟩, .inr (.inr (.inl ⟨hpae, rfl, rfl, rfl⟩))⟩
    · exact ⟨⟨rfl, rfl, id⟩, .inr (.inr (.inr ⟨hsame, rfl, rfl⟩))⟩
    · exact ⟨⟨rfl, rfl, id⟩, .inl ⟨rfl, rfl, rfl⟩⟩
    · rw [storeBytes_frame _ hstore]
      exact ⟨⟨rfl, rfl, id⟩, .inl ⟨rfl, rfl, rfl⟩⟩
  · have hstarted : s.started = true → t.started = true := by
      by_cases hcr3 : ∃ f, i = .cr3Lm f
      · obtain ⟨f, rfl⟩ := hcr3
        obtain ⟨p, rfl⟩ := exec_cr3Row hexec
        exact fun _ => rfl
      · rw [exec_started (fun f hf => hcr3 ⟨f, hf⟩) hexec]
        exact id
    have hframe := exec_frame hexec
    exact ⟨⟨by rw [hframe], by rw [hframe], hstarted⟩, .inl ⟨by rw [hframe], by rw [hframe], by rw [hframe]⟩⟩
  · rw [answer_frame hanswer]
    exact ⟨⟨rfl, rfl, id⟩, .inl ⟨rfl, rfl, rfl⟩⟩

/-- Settles O44: after the first Translate the three requests that write control state leave it as it was. -/
theorem controlStateConstantInARun : Obligations.ControlStateConstantInARun := by
  intro s t h
  obtain ⟨⟨hcfg, hpse, hkeeps⟩, hcontrol⟩ := step_control_cases h
  refine ⟨hcfg, hpse, fun hstarted => ⟨hkeeps hstarted, ?_⟩⟩
  rcases hcontrol with hsame | ⟨-, -, -, -, hnot, -⟩ | ⟨hpae, hcr3, hpae', hlong⟩ | ⟨hcr3, hpae, hlong⟩
  · exact hsame
  · cases hstarted.symm.trans hnot
  · exact ⟨hcr3, hpae'.trans (hpae hstarted).symm, hlong⟩
  · exact ⟨hcr3 hstarted, hpae, hlong⟩

/-! ### Requests, by what stands first in the queue -/

/-- An idle mechanism serves its next request. -/
theorem step_request {q : Request} {rest : List Request} (hp : s.phase = .idle) (hq : s.requests = q :: rest) :
    step s = serveRequest q (s.setRequests rest) := by
  simp only [step, hp, takeRequest, hq]

/-- Settles O43: the activation request is the one that writes LongMode. -/
theorem onlyActivationSetsLongMode : Obligations.OnlyActivationSetsLongMode := by
  constructor
  · intro s t h
    obtain ⟨-, ⟨-, -, hlong⟩ | ⟨hp, hq, hpae, hlong, -, hlong'⟩ | ⟨-, -, -, hlong⟩ | ⟨-, -, hlong⟩⟩ := step_control_cases h
    · exact .inl hlong
    · exact .inr ⟨hlong, hlong', hpae, hp, hq⟩
    · exact .inl hlong
    · exact .inl hlong
  · intro s rest hp hq hpae
    simp [step_request hp hq, serveRequest, activateLongMode, hpae, raise]

/-- Settles O53: the request goes on exactly when it changes nothing or no Translate has begun. -/
theorem settingPae : Obligations.SettingPae := by
  intro s rest hp hq
  rw [step_request hp hq]
  constructor
  · intro hallowed
    refine (enablePae_next_iff _ _).2 ⟨fun hstarted => ?_, rfl⟩
    rcases hallowed with hnot | hpae
    · cases hnot.symm.trans hstarted
    · exact hpae
  · intro hstarted hpae
    simp [serveRequest, enablePae, hstarted, hpae]

/-- Both duties on a CR3 value, in their order (R12, R9). -/
theorem checkCr3_eq (c : Config) (v : Word) : checkCr3 c v =
    if cr3ReservedClear v = true then
      if beyondPabits c (pml4Base v) = true then .error (.refused .cr3BeyondPabits) else .ok ()
    else .error (.refused .cr3Reserved) := by
  unfold checkCr3 guardStop
  cases cr3ReservedClear v <;> simp [bind, Except.bind]

theorem beyondPabits_pml4Base_iff (c : Config) (v : Word) :
    beyondPabits c (pml4Base v) = true ↔ 2 ^ c.paBits ≤ (v.extractLsb' 12 40).toNat * 4096 := by
  rw [beyondPabits, decide_eq_true_iff, pml4Base, toNat_append_zero]
  rfl

/-- Settles O37: the two checks of the value, then the run's. -/
theorem cr3LoadKeepsItsDuties : Obligations.Cr3LoadKeepsItsDuties := by
  intro s v rest hp hq
  rw [step_request hp hq, ← cr3ReservedClear_iff, ← beyondPabits_pml4Base_iff, ← Nat.not_le, ← beyondPabits_pml4Base_iff]
  refine ⟨fun hreserved => ?_, fun hclear => ⟨fun hbeyond => ?_, fun hbelow => ⟨fun hallowed => ?_, fun hstarted hne => ?_⟩⟩⟩
  · simp [serveRequest, writeCr3, checkCr3_eq, hreserved, Stop.outcome]
  · simp [serveRequest, writeCr3, checkCr3_eq, hclear, hbeyond, Stop.outcome]
  · exact (writeCr3_next_iff v _ _).2 ⟨(checkCr3_ok_iff _ _).2 ⟨hclear, Bool.eq_false_iff.2 hbelow⟩,
      fun hstarted => hallowed.resolve_left (Bool.not_eq_false _ ▸ hstarted), rfl⟩
  · simp [serveRequest, writeCr3, checkCr3_eq, hclear, hbelow, hstarted, hne]

/-- Settles O15: each field by evaluation; a memory that lists nothing reads the same byte everywhere. -/
theorem resetState : Obligations.ResetState :=
  ⟨rfl, rfl, rfl, rfl, rfl, rfl, rfl, rfl, rfl, rfl, rfl, rfl, rfl, rfl, rfl, fun _ => rfl⟩

end Sys2Proof.Machine
end

section
/-! PROOFS. What has no effect: CR4.PSE on any step (R15), CR3's PWT and PCD on any translation (R10, R11, R38). -/

namespace Sys2Proof.Machine

/-! ### CR4.PSE -/

@[simp] theorem outcomeWithPse_stop (b : Bool) (e : Stop) : outcomeWithPse b e.outcome = e.outcome := by
  cases e <;> rfl

section
variable (s : State) (b : Bool)

theorem State.withPse_phase : (s.withPse b).phase = s.phase := rfl

theorem State.withPse_cfg : (s.withPse b).cfg = s.cfg := rfl

/-- The checks of a reference do not read CR4.PSE. -/
theorem checkReference_withPse (r : Reference) : checkReference (s.withPse b) r = checkReference s r := rfl

/-- The word a walk awaits does not lie in CR4.PSE. -/
theorem fetchWord_withPse (w : Walk) : fetchWord w (s.withPse b) = fetchWord w s := rfl

theorem rejectWord_withPse (w : Walk) (e : Reject) : outcomeWithPse b (rejectWord w e) = rejectWord w e := by
  unfold rejectWord
  split <;> rfl

/-! The rows. -/

theorem useEntry_withPse (level : Level) (base : PAddr) (rw us nx : Bool) (next : Stage) :
    useEntry level base rw us nx next (s.withPse b) = outcomeWithPse b (useEntry level base rw us nx next s) := by
  simp only [useEntry, State.withPse_phase, State.withPse_cfg]
  rcases s.phase with _ | ⟨ref, done, stage, attr⟩ | _
  · rfl
  · cases stage with
    | table l a => simp only [apply_ite (outcomeWithPse b)]; rfl
    | _ => rfl
  · rfl

theorem endByte_withPse (level : Level) (w : Walk) (pa : PAddr) :
    endByte level w pa (s.withPse b) = outcomeWithPse b (endByte level w pa s) := by
  simp only [endByte, State.withPse_cfg, apply_ite (outcomeWithPse b)]
  rfl

theorem execCr3Lm_withPse (f : Cr3Lm) : execCr3Lm f (s.withPse b) = outcomeWithPse b (execCr3Lm f s) := by
  have hmode : checkMode (s.withPse b) = checkMode s := rfl
  simp only [execCr3Lm, State.withPse_phase, State.withPse_cfg, hmode]
  rcases s.phase with _ | w | _
  · rfl
  · simp only [apply_ite (outcomeWithPse b)]
    cases checkMode s with
    | error e => simp only [outcomeWithPse_stop]; rfl
    | ok u => simp only [apply_ite (outcomeWithPse b)]; rfl
  · rfl

theorem exec_withPse (i : Instr) : exec i (s.withPse b) = outcomeWithPse b (exec i s) := by
  cases i with
  | va4K f =>
    simp only [exec, execVa4K, State.withPse_phase]
    rcases s.phase with _ | ⟨ref, done, stage, attr⟩ | _
    · rfl
    · cases stage with
      | leaf4K base => exact endByte_withPse ..
      | _ => rfl
    · rfl
  | va2M f =>
    simp only [exec, execVa2M, State.withPse_phase]
    rcases s.phase with _ | ⟨ref, done, stage, attr⟩ | _
    · rfl
    · cases stage with
      | leaf2M base => exact endByte_withPse ..
      | _ => rfl
    · rfl
  | va1G f =>
    simp only [exec, execVa1G, State.withPse_phase]
    rcases s.phase with _ | ⟨ref, done, stage, attr⟩ | _
    · rfl
    · cases stage with
      | leaf1G base => exact endByte_withPse ..
      | _ => rfl
    · rfl
  | cr3Lm f => exact execCr3Lm_withPse s b f
  | pml4e f => exact useEntry_withPse ..
  | pdpePd f => exact useEntry_withPse ..
  | pdpe1G f =>
    simp only [exec, execPdpe1G, State.withPse_cfg, useEntry_withPse, apply_ite (outcomeWithPse b)]
    rfl
  | pdePt f => exact useEntry_withPse ..
  | pde2M f => exact useEntry_withPse ..
  | pte f => exact useEntry_withPse ..
  | pde2MLegacy f =>
    simp only [exec, execPde2MLegacy, useEntry_withPse, apply_ite (outcomeWithPse b)]
    rfl

/-! Stores, requests and answers. -/

theorem storeByte_withPse (pa : PAddr) (v : Byte) :
    storeByte pa v (s.withPse b) = (storeByte pa v s).map (·.withPse b) := by
  have hmem : (s.withPse b).mem = s.mem := rfl
  have hread : (s.withPse b).entriesRead = s.entriesRead := rfl
  simp only [storeByte, hmem, hread, apply_ite (Except.map (State.withPse · b))]
  rfl

theorem storeBytes_withPse (l : List (PAddr × Byte)) :
    storeBytes l (s.withPse b) = (storeBytes l s).map (·.withPse b) := by
  induction l generalizing s with
  | nil => rfl
  | cons c l ih =>
    rw [storeBytes, storeBytes, storeByte_withPse]
    cases storeByte c.1 c.2 s with
    | error e => rfl
    | ok u => exact ih u

theorem answer_withPse (r : Reference) (pas : List PAddr) :
    answer r pas (s.withPse b) = (answer r pas s).map (·.withPse b) := by
  unfold answer
  cases r.kind with
  | translate => rfl
  | read n => rfl
  | write bytes =>
    simp only [storeBytes_withPse]
    cases storeBytes (pas.zip bytes) s <;> rfl

theorem outcomeOf_withPse (x : Except Stop State) :
    outcomeOf (x.map (·.withPse b)) = outcomeWithPse b (outcomeOf x) := by
  cases x with
  | ok s => rfl
  | error e => exact (outcomeWithPse_stop b e).symm

theorem serveRequest_withPse (q : Request) : serveRequest q (s.withPse b) = outcomeWithPse b (serveRequest q s) := by
  cases q with
  | reference r =>
    simp only [serveRequest, beginReference, checkReference_withPse]
    cases checkReference s r with
    | error e => exact (outcomeWithPse_stop b e).symm
    | ok u => rfl
  | activateLongMode =>
    simp only [serveRequest, activateLongMode, apply_ite (outcomeWithPse b)]
    rfl
  | enablePae =>
    simp only [serveRequest, enablePae, apply_ite (outcomeWithPse b)]
    rfl
  | writeCr3 v =>
    simp only [serveRequest, writeCr3, State.withPse_cfg]
    cases checkCr3 s.cfg v with
    | error e => exact (outcomeWithPse_stop b e).symm
    | ok u => simp only [apply_ite (outcomeWithPse b)]; rfl
  | physRead pa n =>
    simp only [serveRequest, physRead, State.withPse_cfg]
    cases checkPhys s.cfg pa n with
    | error e => exact (outcomeWithPse_stop b e).symm
    | ok u => rfl
  | physWrite pa bytes =>
    simp only [serveRequest, physWrite, State.withPse_cfg, storeBytes_withPse]
    cases checkPhys s.cfg pa bytes.length with
    | error e => exact (outcomeWithPse_stop b e).symm
    | ok u =>
      cases storeBytes ((physRange pa bytes.length).zip bytes) s with
      | error e => exact (outcomeWithPse_stop b e).symm
      | ok t => rfl

theorem takeRequest_withPse : takeRequest (s.withPse b) = outcomeWithPse b (takeRequest s) := by
  have hrequests : (s.withPse b).requests = s.requests := rfl
  simp only [takeRequest, hrequests]
  cases s.requests with
  | nil => rfl
  | cons q rest => exact serveRequest_withPse (s.setRequests rest) b q

theorem finishReference_withPse (r : Reference) (pas : List PAddr) :
    finishReference r pas (s.withPse b) = outcomeWithPse b (finishReference r pas s) := by
  have hanswer := answer_withPse (s.setPhase .idle) b r pas
  exact (congrArg outcomeOf hanswer).trans (outcomeOf_withPse b _)

/-- No step reads or writes CR4.PSE. -/
theorem step_withPse : step (s.withPse b) = outcomeWithPse b (step s) := by
  simp only [step, State.withPse_phase, fetchWord_withPse]
  cases s.phase with
  | idle => exact takeRequest_withPse s b
  | walking w =>
    simp only
    cases fetchWord w s with
    | error e => exact (outcomeWithPse_stop b e).symm
    | ok word =>
      simp only
      cases decodeWord w.stage.slot word with
      | ok i => exact exec_withPse s b i
      | error e => exact (rejectWord_withPse b w e).symm
  | finishing r pas => exact finishReference_withPse s b r pas

end

/-- PDE.PS, bit 7, selects the row of a PDE (R44). -/
theorem decode_pd_by_ps {e : Word} {i : Instr} (h : decodeWord .pd e = .ok i) :
    ((∃ f, i = .pdePt f) ↔ e.getLsbD 7 = false) ∧ ((∃ f, i = .pde2M f) ↔ e.getLsbD 7 = true) := by
  simp only [decodeWord] at h
  split_ifs at h with hpresent hps hzero <;> cases h
  · simp only [hps, Instr.pdePt.injEq, exists_eq', reduceCtorEq, exists_false, and_self]
  · simp only [Bool.not_eq_false] at hps
    simp only [hps, Instr.pde2M.injEq, exists_eq', reduceCtorEq, exists_false, and_self]

/-- Settles O47: every operation commutes with setting the bit, and a PDE's row is read off its bit 7. -/
theorem pseIsIgnored : Obligations.PseIsIgnored := ⟨step_withPse, fun _ _ => decode_pd_by_ps⟩

/-! ### CR3's PWT and PCD -/

theorem extractLsb'_congr {v w : Word} {start len : Nat}
    (h : ∀ i, start ≤ i → i < start + len → v.getLsbD i = w.getLsbD i) :
    v.extractLsb' start len = w.extractLsb' start len := by
  apply BitVec.eq_of_getLsbD_eq
  intro i hi
  rw [BitVec.getLsbD_extractLsb', BitVec.getLsbD_extractLsb', h (start + i) (by omega) (by omega)]

/-- A translation takes from CR3 its reserved bits and its base, which bits 3 and 4 are not among. -/
theorem translateVa_setCr3 (s : State) (v : Word) (va : VAddr) (acc : Acc)
    (hreserved : cr3ReservedClear v = cr3ReservedClear s.cr3) (hbase : pml4Base v = pml4Base s.cr3) :
    translateVa (s.setCr3 v) va acc = translateVa s va acc := by
  have hpre : precondition (s.setCr3 v) = precondition s := by
    unfold precondition checkCr3
    rw [State.setCr3_cr3, State.setCr3_cfg, hreserved, hbase]
    rfl
  unfold translateVa
  rw [hpre, State.setCr3_cr3, hbase]
  rfl

/-- Settles O48: the fields of CR3 that a translation reads all miss bits 3 and 4. -/
theorem cachingBitsOfCr3Ignored : Obligations.CachingBitsOfCr3Ignored := by
  intro s v va acc h
  have hfield : ∀ start len, 5 ≤ start ∨ start + len ≤ 3 → v.extractLsb' start len = s.cr3.extractLsb' start len :=
    fun start len hoff => extractLsb'_congr fun i _ _ => h i (by omega) (by omega)
  refine translateVa_setCr3 s v va acc ?_ ?_
  · rw [cr3ReservedClear, hfield 52 12 (by omega), hfield 5 7 (by omega), hfield 0 3 (by omega), ← cr3ReservedClear]
  · rw [pml4Base, hfield 12 40 (by omega), ← pml4Base]

end Sys2Proof.Machine
end

section
/-! PROOFS. Addresses and the words of memory: canonical form, entry addresses, little-endian words (R20, R22, R28, R31). -/

namespace Sys2Proof.Machine

/-! ### Canonical form -/

/-- Two words agree after a right shift by `k` when their bits from `k` up agree. -/
theorem ushiftRight_eq_iff (x y : Word) (k : Nat) :
    x >>> k = y >>> k ↔ ∀ i, k ≤ i → i < 64 → x.getLsbD i = y.getLsbD i := by
  constructor
  · intro h i hk _
    have hbit := congrArg (BitVec.getLsbD · (i - k)) h
    simpa [Nat.add_sub_cancel' hk] using hbit
  · intro h
    apply BitVec.eq_of_getLsbD_eq
    intro i _
    rw [BitVec.getLsbD_ushiftRight, BitVec.getLsbD_ushiftRight]
    by_cases hi : k + i < 64
    · exact h (k + i) (Nat.le_add_right k i) hi
    · rw [BitVec.getLsbD_of_ge x _ (Nat.le_of_not_lt hi), BitVec.getLsbD_of_ge y _ (Nat.le_of_not_lt hi)]

/-- Bits VABITS-1 to 63 are all zeros or all ones (R22). -/
theorem canonical_iff_bits (n : Nat) (va : VAddr) : canonical n va = true ↔
    (∀ i, n - 1 ≤ i → i < 64 → va.getLsbD i = false) ∨ (∀ i, n - 1 ≤ i → i < 64 → va.getLsbD i = true) := by
  have hzeros : va >>> (n - 1) = 0#64 ↔ ∀ i, n - 1 ≤ i → i < 64 → va.getLsbD i = false := by
    simpa using ushiftRight_eq_iff va 0#64 (n - 1)
  have hones : va >>> (n - 1) = BitVec.allOnes 64 >>> (n - 1) ↔ ∀ i, n - 1 ≤ i → i < 64 → va.getLsbD i = true := by
    rw [ushiftRight_eq_iff]
    exact forall₃_congr fun i _ hi => by rw [BitVec.getLsbD_allOnes, decide_eq_true hi]
  rw [canonical, Bool.or_eq_true, beq_iff_eq, beq_iff_eq, hzeros, hones]

/-- Settles O8: the general form bit by bit; at 48 bits, sign extension of bit 47 through bits 63:48. -/
theorem canonicalForm : Obligations.CanonicalForm := by
  refine ⟨fun n va _ _ => canonical_iff_bits n va, fun va => ?_⟩
  have hbit : va.extractLsb' 47 1 = bit ((va.extractLsb' 39 9).getLsbD 8) := by
    rw [← getLsbD_eq_iff_extractLsb']
    simp
  rw [canonical_48_eq, ← signExtOk_fields, signExtOk, beq_iff_eq, hbit]

/-- Canonical addresses are the lowest 2^47 and the highest 2^47 (R20, R22). -/
theorem canonical_48_iff_range (va : VAddr) :
    canonical 48 va = true ↔ va.toNat ≤ 0x00007FFFFFFFFFFF ∨ 0xFFFF800000000000 ≤ va.toNat := by
  have hlt := va.isLt
  rw [canonical_48_iff]
  omega

/-- Settles O9: the ranges in numbers; the low 48 bits and the PML4 index follow by division. -/
theorem usableAddressRanges : Obligations.UsableAddressRanges := by
  refine ⟨canonical_48_iff_range, fun va va' hva hva' hlow => ?_, fun va _ => ?_⟩
  · rw [canonical_48_iff_range] at hva hva'
    have hmod : va.toNat % 2 ^ 48 = va'.toNat % 2 ^ 48 := by simpa using congrArg BitVec.toNat hlow
    have hlt := va.isLt
    have hlt' := va'.isLt
    exact BitVec.eq_of_toNat_eq (by omega)
  · have hlt := va.isLt
    have hindex : (tableIndex .pml4 va).toNat = va.toNat / 2 ^ 39 % 2 ^ 9 := by
      simp [tableIndex, Nat.shiftRight_eq_div_pow]
    omega

/-! ### Entry addresses -/

/-- A concatenation of fields, in numbers. -/
theorem toNat_append_eq {m n : Nat} (x : BitVec m) (y : BitVec n) : (x ++ y).toNat = x.toNat * 2 ^ n + y.toNat := by
  rw [BitVec.toNat_append, ← Nat.shiftLeft_add_eq_or_of_lt y.isLt, Nat.shiftLeft_eq]

/-- An entry address in numbers, at an aligned base (R28). -/
theorem entryAddr_toNat {base : PAddr} (i : BitVec 9) (h : base.extractLsb' 0 12 = 0#12) :
    (entryAddr base i).toNat = base.toNat + 8 * i.toNat := by
  have hlow : base.toNat % 2 ^ 12 = 0 := by simpa using congrArg BitVec.toNat h
  have hlt := base.isLt
  have hfield : (base.extractLsb' 12 40).toNat = base.toNat / 2 ^ 12 % 2 ^ 40 := by
    simp [Nat.shiftRight_eq_div_pow]
  rw [entryAddr, toNat_append_zero, toNat_append_eq, hfield]
  omega

/-- Settles O10: 512 entries of 8 bytes from an address divisible by 4096. -/
theorem entryAddressIsBasePlusEightTimesIndex : Obligations.EntryAddressIsBasePlusEightTimesIndex := by
  intro base i h
  have hlow : base.toNat % 2 ^ 12 = 0 := by simpa using congrArg BitVec.toNat h
  have hi := i.isLt
  rw [entryAddr_toNat i h]
  omega

/-! ### Little-endian words -/

/-- A word of memory holds its bytes lowest address first (R31). -/
theorem word64_eq_iff (m : Memory) (a : Nat) (w : Word) :
    word64 m a = w ↔ ∀ k, k < 8 → m.read (a + k) = w.extractLsb' (8 * k) 8 := by
  rw [← fieldAt_zero_iff, word64]
  simp only [fieldAt_append]
  simp only [FieldAt, Nat.reduceAdd]
  constructor
  · rintro ⟨⟨⟨⟨⟨⟨⟨h7, h6⟩, h5⟩, h4⟩, h3⟩, h2⟩, h1⟩, h0⟩ k hk
    interval_cases k
    exacts [h0.symm, h1.symm, h2.symm, h3.symm, h4.symm, h5.symm, h6.symm, h7.symm]
  · intro h
    exact ⟨⟨⟨⟨⟨⟨⟨(h 7 (by decide)).symm, (h 6 (by decide)).symm⟩, (h 5 (by decide)).symm⟩, (h 4 (by decide)).symm⟩,
      (h 3 (by decide)).symm⟩, (h 2 (by decide)).symm⟩, (h 1 (by decide)).symm⟩, (h 0 (by decide)).symm⟩

/-- Settles O12: the value by the concatenation in numbers, the bits byte by byte. -/
theorem entriesAreLittleEndian : Obligations.EntriesAreLittleEndian := by
  intro m a
  constructor
  · simp only [word64, toNat_append_eq, List.range_succ, List.range_zero, List.nil_append, List.cons_append, List.map_cons,
      List.map_nil, joinLE, Nat.add_zero]
    omega
  · intro k i hk hi
    rw [(word64_eq_iff m a _).1 rfl k hk, BitVec.getLsbD_extractLsb', decide_eq_true hi, Bool.true_and]

/-- Storing bytes from `a` up stores `bs[k]` at `a + k`. -/
theorem Memory.read_writeBytes_at {m : Memory} {bs : List Byte} {a k : Nat} (hm : m.wf = true) (hk : k < bs.length) :
    (m.writeBytes a bs).read (a + k) = bs[k] := by
  induction bs generalizing m a k with
  | nil => exact absurd hk (Nat.not_lt_zero k)
  | cons b bs ih =>
    rw [Memory.writeBytes]
    cases k with
    | zero =>
      rw [Nat.add_zero a, Memory.read_writeBytes_lt _ _ (Nat.lt_add_one a), Memory.read_write hm, if_pos rfl]
      rfl
    | succ k =>
      rw [← Nat.add_assoc, Nat.add_right_comm, ih (Memory.wf_write hm a b) (Nat.lt_of_succ_lt_succ hk)]
      rfl

/-- Storing bytes from `a` up leaves the addresses behind the last one alone. -/
theorem Memory.read_writeBytes_ge (m : Memory) (bs : List Byte) {a a' : Nat} (h : a + bs.length ≤ a') :
    (m.writeBytes a bs).read a' = m.read a' := by
  induction bs generalizing m a with
  | nil => rfl
  | cons b bs ih =>
    rw [List.length_cons] at h
    rw [Memory.writeBytes, ih _ (by omega), Memory.read_write_other _ _ (by omega)]

/-- Settles O13: byte `k` of the word is stored at `a + k` and read there. -/
theorem storedWordReadsBack : Obligations.StoredWordReadsBack := by
  intro m a w hm
  constructor
  · rw [word64_eq_iff]
    intro k hk
    rw [Memory.read_writeBytes_at hm hk]
    interval_cases k <;> rfl
  · rintro a' (hlt | hge)
    · exact Memory.read_writeBytes_lt m _ hlt
    · exact Memory.read_writeBytes_ge m _ hge

end Sys2Proof.Machine
end

section
/-! PROOFS. Where a reference and its walk read or stop: the entry that is read, bases and addresses beyond PABITS, the checks of
a reference (R21, R23, R28, R35, R86, R104). -/

namespace Sys2Proof.Machine

variable {s : State} {w : Walk}

/-! ### Reading an entry -/

theorem inEntry_iff (e a : PAddr) : inEntry e a = true ↔ e.toNat ≤ a.toNat ∧ a.toNat < e.toNat + 8 := by
  simp [inEntry]

/-- An entry beyond PABITS is refused (R21, R30). -/
theorem readEntry_beyond {pa : PAddr} (h : 2 ^ s.cfg.paBits ≤ pa.toNat + 7) :
    readEntry s pa = .error (.refused .addressBeyondPabits) := by
  rw [readEntry, decide_eq_true h]
  rfl

/-- An entry with a byte that the run has changed is refused (R104). -/
theorem readEntry_changed {pa : PAddr} (h : pa.toNat + 7 < 2 ^ s.cfg.paBits) (hc : ∃ a ∈ s.changed, inEntry pa a = true) :
    readEntry s pa = .error (.refused .tableChanged) := by
  rw [readEntry, decide_eq_false (Nat.not_le_of_lt h), List.any_eq_true.2 hc]
  rfl

theorem fetchWord_table {l : Level} {b : PAddr} (h : w.stage = .table l b) :
    fetchWord w s = readEntry s (entryAddr b (tableIndex l w.va)) := by
  simp only [fetchWord, h]

/-- The lowest bit of a level's index field in a virtual address (R40). -/
def indexShift : Level → Nat
  | .pml4 => 39
  | .pdp => 30
  | .pd => 21
  | .pt => 12

theorem tableIndex_toNat (l : Level) (va : VAddr) : (tableIndex l va).toNat = va.toNat / 2 ^ indexShift l % 512 := by
  cases l <;> simp [tableIndex, indexShift, Nat.shiftRight_eq_div_pow]

/-- Settles O14: an awaited entry is read at `entryAddr`, whose value in numbers is the position named. -/
theorem walkReadsTheIndexedEntry : Obligations.WalkReadsTheIndexedEntry := by
  refine ⟨fun s w l b hstage haligned pos hpos => ?_, fun s w h => by simp only [fetchWord, h], fun s w h => ?_⟩
  · have hat : (entryAddr b (tableIndex l w.va)).toNat = pos := by
      rw [entryAddr_toNat _ haligned, tableIndex_toNat, hpos]
      cases l <;> rfl
    have hin : ∀ a, inEntry (entryAddr b (tableIndex l w.va)) a = true ↔ pos ≤ a.toNat ∧ a.toNat < pos + 8 := fun a => by
      rw [inEntry_iff, hat]
    rw [fetchWord_table hstage]
    refine ⟨fun hbelow hsame => ?_, fun hbeyond => ?_, fun hbelow hchanged => ?_⟩
    · refine (readEntry_ok_iff _ _ _).2 ⟨by rwa [hat], List.any_eq_false.2 fun a ha => ?_, by rw [hat]⟩
      rw [hin]
      exact hsame a ha
    · exact readEntry_beyond (by rwa [hat])
    · refine readEntry_changed (by rwa [hat]) ?_
      simpa only [hin] using hchanged
  · rcases h with ⟨b, h⟩ | ⟨b, h⟩ | ⟨b, h⟩ <;> simp only [fetchWord, h]

/-! ### Beyond PABITS -/

theorem beyondPabits_eq_true_iff (c : Config) (pa : PAddr) : beyondPabits c pa = true ↔ 2 ^ c.paBits ≤ pa.toNat := by
  simp [beyondPabits]

/-- An entry row whose base lies beyond PABITS (R66). -/
theorem useEntry_beyond {level : Level} {base b : PAddr} {rw us nx : Bool} {next : Stage} (hp : s.phase = .walking w)
    (hstage : w.stage = .table level b) (h : 2 ^ s.cfg.paBits ≤ base.toNat) :
    useEntry level base rw us nx next s = .refused (.baseBeyondPabits level) := by
  simp only [useEntry, hp, hstage, (beyondPabits_eq_true_iff _ _).2 h, if_true]

/-- A VA row whose byte lies beyond PABITS (R65, R70, R75). -/
theorem endByte_beyond {level : Level} {pa : PAddr} (hperm : permits s.cfg.permCheck w.ref.acc w.attr = true)
    (h : 2 ^ s.cfg.paBits ≤ pa.toNat) : endByte level w pa s = .refused .addressBeyondPabits := by
  simp only [endByte, hperm, (beyondPabits_eq_true_iff _ _).2 h, if_true]

/-- Settles O31: every entry row refuses by `useEntry`, every VA row by `endByte`. -/
theorem addressesBeyondPabitsRefused : Obligations.AddressesBeyondPabitsRefused := by
  intro s w hp
  have hbase : ∀ {n k : Nat} {field : BitVec n}, 2 ^ s.cfg.paBits ≤ field.toNat * 2 ^ k →
      2 ^ s.cfg.paBits ≤ (field ++ 0#k).toNat := fun h => h.trans_eq (toNat_append_zero ..).symm
  have hbyte : ∀ {n k : Nat} {field : BitVec n} {offset : BitVec k},
      2 ^ s.cfg.paBits ≤ field.toNat * 2 ^ k + offset.toNat → 2 ^ s.cfg.paBits ≤ (field ++ offset).toNat :=
    fun h => h.trans_eq (toNat_append_eq ..).symm
  refine ⟨fun f b hstage h => useEntry_beyond hp hstage (hbase h), fun f b hstage h => useEntry_beyond hp hstage (hbase h),
    fun f b hstage h => useEntry_beyond hp hstage (hbase h), fun f b hstage h => useEntry_beyond hp hstage (hbase h),
    fun f b hstage h => useEntry_beyond hp hstage (hbase h), fun f b hlong hstage h => ?_, fun f b hpage hstage h => ?_,
    fun hperm => ⟨fun f base hstage h => ?_, fun f base hstage h => ?_, fun f base hstage h => ?_⟩⟩
  · simp only [exec, execPde2MLegacy, hlong, if_true]
    exact useEntry_beyond hp hstage (hbase h)
  · simp only [exec, execPdpe1G, hpage, if_true]
    exact useEntry_beyond hp hstage (hbase h)
  · simp only [exec, execVa4K, hp, hstage]
    exact endByte_beyond hperm (hbyte h)
  · simp only [exec, execVa2M, hp, hstage]
    exact endByte_beyond hperm (hbyte h)
  · simp only [exec, execVa1G, hp, hstage]
    exact endByte_beyond hperm (hbyte h)

/-! ### The checks of a reference -/

/-- The checks of a reference do not read the requests that wait. -/
theorem checkReference_setRequests (s : State) (l : List Request) (r : Reference) :
    checkReference (s.setRequests l) r = checkReference s r := rfl

/-- An idle mechanism whose next request is a reference that a check stops. -/
theorem step_reference_error {r : Reference} {rest : List Request} {e : Stop} (hp : s.phase = .idle)
    (hq : s.requests = .reference r :: rest) (h : checkReference s r = .error e) : step s = e.outcome := by
  simp only [step_request hp hq, serveRequest, beginReference, checkReference_setRequests, h]

/-- An idle mechanism whose next request is a reference that passes its checks. -/
theorem step_reference_ok {r : Reference} {rest : List Request} (hp : s.phase = .idle)
    (hq : s.requests = .reference r :: rest) (h : checkReference s r = .ok ()) :
    step s = .next ((s.setRequests rest).setPhase (firstPhase r)) := by
  rw [step_request hp hq]
  exact (beginReference_next_iff _ _ _).2 ⟨h, rfl⟩

theorem checkReference_of_precondition {r : Reference} (h : precondition s = .ok ()) :
    checkReference s r = (do
      guardStop r.wraps (.refused .wraps)
      guardStop (!allCanonical s.cfg.vaBits r) (.fault (gpOrSs r.va r.acc))) := by
  rw [checkReference, h]
  rfl

/-- Settles O33: the check of canonical form comes last, and one byte decides it (D5). -/
theorem nonCanonicalReferenceRaises : Obligations.NonCanonicalReferenceRaises := by
  rintro s r rest hp hq hpre hend ⟨k, hk, hbyte⟩
  have hbits : s.cfg.vaBits = 48 := ((precondition_ok_iff s).1 hpre).1.2.2
  have hwraps : r.wraps = false := decide_eq_false (Nat.not_le_of_lt hend)
  have hnot : allCanonical s.cfg.vaBits r = false := Bool.eq_false_iff.2 fun hall => by
    rw [hbits] at hall
    rw [canonical_of_allCanonical hall hk] at hbyte
    cases hbyte
  have hcheck : checkReference s r = .error (.fault (gpOrSs r.va r.acc)) := by
    rw [checkReference_of_precondition hpre, hwraps, hnot]
    rfl
  rw [step_reference_error hp hq hcheck]
  rfl

/-- Settles O34: the check of the end comes before that of canonical form. -/
theorem wrappingReferenceRefused : Obligations.WrappingReferenceRefused := by
  intro s r rest hp hq hpre hend
  have hwraps : r.wraps = true := decide_eq_true hend
  have hcheck : checkReference s r = .error (.refused .wraps) := by
    rw [checkReference_of_precondition hpre, hwraps]
    rfl
  rw [step_reference_error hp hq hcheck]
  rfl

/-! ### The end of a reference -/

theorem step_finishing {r : Reference} {pas : List PAddr} (hp : s.phase = .finishing r pas) :
    step s = outcomeOf (answer r pas (s.setPhase .idle)) := by
  simp only [step, hp, finishReference]

/-- Settles O39: the answer of each kind, from the state with the reference ended. -/
theorem translateAndReadAnswer : Obligations.TranslateAndReadAnswer := by
  intro s r pas hp
  rw [step_finishing hp]
  refine ⟨fun pa hkind hpas => ?_, fun n hkind => ?_⟩
  · subst hpas
    simp only [answer, hkind]
    rfl
  · simp only [answer, hkind]
    rfl

/-- A reference of no byte passes the checks of its addresses, of which it has none. -/
theorem checkReference_no_byte {r : Reference} (hpre : precondition s = .ok ()) (hsize : r.size = 0) :
    checkReference s r = .ok () := by
  have hlt := r.va.isLt
  refine (checkReference_ok_iff s r).2 ⟨hpre, decide_eq_false ?_, by rw [allCanonical, hsize]; rfl⟩
  rw [hsize]
  omega

/-- A reference of no byte is answered in two steps: its checks, its end. -/
theorem steps_no_byte {r : Reference} {rest : List Request} (hp : s.phase = .idle) (hq : s.requests = .reference r :: rest)
    (hpre : precondition s = .ok ()) (hsize : r.size = 0) :
    steps 2 s = outcomeOf (answer r [] (s.setRequests rest)) := by
  rw [steps_next (step_reference_ok hp hq (checkReference_no_byte hpre hsize)), steps_one, firstPhase_of_none hsize,
    step_finishing rfl]
  have hidle : ((s.setRequests rest).setPhase (.finishing r [])).setPhase .idle = s.setRequests rest := by
    rw [State.setPhase, State.setPhase, State.setRequests, ← hp]
  rw [hidle]

/-- Settles O54: with no byte the answer reads and stores nothing. -/
theorem referenceOfNoByte : Obligations.ReferenceOfNoByte := by
  intro s va acc rest hp hpre
  exact ⟨fun hq => steps_no_byte hp hq hpre rfl, fun hq => steps_no_byte hp hq hpre rfl⟩

end Sys2Proof.Machine
end

section
/-! PROOFS. Stores and physical accesses: what `storeBytes` leaves in memory, when it is refused, and the requests and the end of
a MemWrite that use it (R30, R36, R104). -/

namespace Sys2Proof.Machine

variable {s t : State}

/-! ### Stores -/

/-- The state after one byte has been stored holds it, and every other byte as before. -/
theorem storeByte_mem {pa : PAddr} {b : Byte} (hs : s.mem.wf = true) (h : storeByte pa b s = .ok t) :
    t.mem.wf = true ∧ ∀ a : Nat, t.mem.read a = if pa.toNat = a then b else s.mem.read a := by
  rcases (storeByte_ok_iff pa b s t).1 h with ⟨hheld, rfl⟩ | ⟨-, -, rfl⟩
  · refine ⟨hs, fun a => ?_⟩
    split
    · next ha => rw [← ha, hheld]
    · rfl
  · refine ⟨Memory.wf_write hs _ b, fun a => ?_⟩
    simp only [State.noteChanged_mem, State.setMem_mem, Memory.read_write hs, eq_comm (a := a)]

/-- Stores one after another, as the stores of the first and of the rest. -/
theorem storeBytes_cons_ok_iff {c : PAddr × Byte} {l : List (PAddr × Byte)} :
    storeBytes (c :: l) s = .ok t ↔ ∃ u, storeByte c.1 c.2 s = .ok u ∧ storeBytes l u = .ok t := by
  rw [storeBytes]
  cases storeByte c.1 c.2 s <;> simp

/-- Every address holds the last byte stored to it (R36). -/
theorem storeBytes_read {l : List (PAddr × Byte)} (hs : s.mem.wf = true) (h : storeBytes l s = .ok t) (a : Nat) :
    t.mem.read a = l.foldl (fun old c => if c.1.toNat = a then c.2 else old) (s.mem.read a) := by
  induction l generalizing s with
  | nil => cases h; rfl
  | cons c l ih =>
    obtain ⟨u, hu, ht⟩ := storeBytes_cons_ok_iff.1 h
    obtain ⟨hwf, hread⟩ := storeByte_mem hs hu
    rw [ih hwf ht, hread, List.foldl_cons]

/-- At distinct addresses every byte stored is there afterwards. -/
theorem storeBytes_read_of_mem {l : List (PAddr × Byte)} (hs : s.mem.wf = true) (h : storeBytes l s = .ok t)
    (hl : (l.map Prod.fst).Nodup) {c : PAddr × Byte} (hc : c ∈ l) : t.mem.read c.1.toNat = c.2 := by
  induction l generalizing s with
  | nil => exact absurd hc List.not_mem_nil
  | cons d l ih =>
    obtain ⟨u, hu, ht⟩ := storeBytes_cons_ok_iff.1 h
    obtain ⟨hwf, hread⟩ := storeByte_mem hs hu
    obtain ⟨hd, hl⟩ := List.nodup_cons.1 hl
    rcases List.mem_cons.1 hc with rfl | hc
    · have hother : ∀ d ∈ l, d.1.toNat ≠ c.1.toNat := fun d hd' heq =>
        hd (List.mem_map.2 ⟨d, hd', BitVec.eq_of_toNat_eq heq⟩)
      rw [storeBytes_read_other l ht _ hother, hread, if_pos rfl]
    · exact ih hwf ht hl hc

/-- A store stops for one reason: it would change a byte of an entry that the run has read (R104). -/
theorem storeBytes_error {l : List (PAddr × Byte)} {e : Stop} (h : storeBytes l s = .error e) :
    e = .refused .tableChanged := by
  induction l generalizing s with
  | nil => cases h
  | cons c l ih =>
    rw [storeBytes] at h
    split at h
    · next e' hfirst =>
      unfold storeByte at hfirst
      split_ifs at hfirst
      cases hfirst
      cases h
      rfl
    · exact ih h

/-- Stores that complete store into an entry that the run has read only the bytes held there (R104). -/
theorem storeBytes_held {l : List (PAddr × Byte)} (h : storeBytes l s = .ok t) {c : PAddr × Byte} (hc : c ∈ l)
    {e : PAddr} (he : e ∈ s.entriesRead) (hin : inEntry e c.1 = true) : s.mem.read c.1.toNat = c.2 := by
  induction l generalizing s with
  | nil => exact absurd hc List.not_mem_nil
  | cons d l ih =>
    obtain ⟨u, hu, ht⟩ := storeBytes_cons_ok_iff.1 h
    have hone : storeBytes [d] s = .ok u := storeBytes_cons_ok_iff.2 ⟨u, hu, rfl⟩
    have he' : e ∈ u.entriesRead := by
      rw [storeBytes_frame _ hone]
      exact he
    rcases List.mem_cons.1 hc with rfl | hc
    · rcases (storeByte_ok_iff _ _ _ _).1 hu with ⟨hheld, -⟩ | ⟨-, hno, -⟩
      · exact hheld
      · exact absurd hin (List.any_eq_false.1 hno e he)
    · rw [← storeBytes_entry [d] hone e he c.1 hin]
      exact ih ht hc he'

/-- Stores that would change a byte of an entry that the run has read are refused (R104). -/
theorem storeBytes_refused {l : List (PAddr × Byte)}
    (h : ∃ c ∈ l, ∃ e ∈ s.entriesRead, inEntry e c.1 = true ∧ s.mem.read c.1.toNat ≠ c.2) :
    storeBytes l s = .error (.refused .tableChanged) := by
  obtain ⟨c, hc, e, he, hin, hne⟩ := h
  cases hstore : storeBytes l s with
  | error st => rw [storeBytes_error hstore]
  | ok t => exact absurd (storeBytes_held hstore hc he hin) hne

/-! ### The end of a MemWrite -/

theorem answer_write {r : Reference} {pas : List PAddr} {bytes : List Byte} (h : r.kind = .write bytes) :
    answer r pas s = (storeBytes (pas.zip bytes) s).map (·.respond [.bytesWritten]) := by
  simp only [answer, h]
  cases storeBytes (pas.zip bytes) s <;> rfl

theorem map_fst_zip_sublist {α β : Type} (l : List α) (l' : List β) : ((l.zip l').map Prod.fst).Sublist l := by
  rw [List.zip_eq_zip_take_min, List.map_fst_zip (by simp)]
  exact List.take_sublist _ _

/-- Settles O40: the bytes by `storeBytes_read`, the record of changes by `storeBytes_changed`. -/
theorem writeStoresItsBytes : Obligations.WriteStoresItsBytes := by
  intro s r pas bytes hp hkind hwf hheld
  obtain ⟨u, hu⟩ := storeBytes_completes (pas.zip bytes) (s.setPhase .idle) hheld
  obtain ⟨d, hchanged, hmem, hnodup⟩ := storeBytes_changed (pas.zip bytes) (s := s.setPhase .idle) hwf hu
  refine ⟨u.respond [.bytesWritten], ?_, ?_, storeBytes_read (s := s.setPhase .idle) (t := u) hwf hu, fun a ha => ?_, d, hchanged,
    hmem, fun hpas => ?_⟩
  · rw [step_finishing hp, answer_write hkind, hu]
    rfl
  · rw [storeBytes_frame _ hu]
    rfl
  · exact storeBytes_read_other _ hu a fun c hc => ha c.1 (List.of_mem_zip hc).1
  · exact hnodup (hpas.sublist (map_fst_zip_sublist pas bytes))

/-! ### Physical accesses -/

theorem step_physRead {pa : PAddr} {n : Nat} {rest : List Request} (hp : s.phase = .idle)
    (hq : s.requests = .physRead pa n :: rest) : step s = physRead pa n (s.setRequests rest) :=
  step_request hp hq

theorem step_physWrite {pa : PAddr} {bytes : List Byte} {rest : List Request} (hp : s.phase = .idle)
    (hq : s.requests = .physWrite pa bytes :: rest) : step s = physWrite pa bytes (s.setRequests rest) :=
  step_request hp hq

theorem checkPhys_beyond {c : Config} {pa : PAddr} {n : Nat} (h : 2 ^ c.paBits ≤ pa.toNat + n - 1) :
    checkPhys c pa n = .error (.refused .addressBeyondPabits) := by
  rw [checkPhys, decide_eq_true h]
  rfl

theorem paBits_le (c : Config) : c.paBits ≤ 52 := by
  have h := c.paExtra.isLt
  unfold Config.paBits
  omega

section
variable {c : Config} {pa : PAddr} {n : Nat}

/-- Below 2^PABITS the addresses of a physical access do not wrap (R30). -/
theorem physAddr_toNat {k : Nat} (h : pa.toNat + n - 1 < 2 ^ c.paBits) (hk : k < n) :
    (pa + BitVec.ofNat 52 k).toNat = pa.toNat + k := by
  have hle : 2 ^ c.paBits ≤ 2 ^ 52 := Nat.pow_le_pow_right (by decide) (paBits_le c)
  rw [BitVec.toNat_add, BitVec.toNat_ofNat, Nat.add_mod_mod]
  exact Nat.mod_eq_of_lt (by omega)

theorem physRange_nodup (h : pa.toNat + n - 1 < 2 ^ c.paBits) : (physRange pa n).Nodup := by
  refine List.Nodup.map_on (fun x hx y hy hxy => ?_) List.nodup_range
  have heq := congrArg BitVec.toNat hxy
  rw [physAddr_toNat h (List.mem_range.1 hx), physAddr_toNat h (List.mem_range.1 hy)] at heq
  exact Nat.add_left_cancel heq

theorem map_read_physRange (m : Memory) (h : pa.toNat + n - 1 < 2 ^ c.paBits) :
    (physRange pa n).map (fun a => m.read a.toNat) = (List.range n).map fun k => m.read (pa.toNat + k) := by
  rw [physRange, List.map_map]
  refine List.map_congr_left fun k hk => ?_
  rw [Function.comp_apply, physAddr_toNat h (List.mem_range.1 hk)]

end

/-- Byte `k` of a PhysWrite is stored at `pa + k`. -/
theorem mem_physRange_zip {pa : PAddr} {bytes : List Byte} {c : PAddr × Byte} :
    c ∈ (physRange pa bytes.length).zip bytes ↔
      ∃ (k : Nat) (h : k < bytes.length), c = (pa + BitVec.ofNat 52 k, bytes[k]) := by
  rw [List.mem_iff_getElem]
  simp only [physRange, List.length_zip, List.length_map, List.length_range, Nat.min_self, List.getElem_zip,
    List.getElem_map, List.getElem_range, eq_comm]

/-- Settles O38: a PhysRead by its addresses in numbers; a PhysWrite by the laws of `storeBytes` at distinct addresses. -/
theorem physicalAccess : Obligations.PhysicalAccess := by
  intro s pa rest hp hwf
  refine ⟨fun n hq => ⟨fun hbeyond => ?_, fun hbelow => ?_⟩, fun bytes hq => ⟨fun hbeyond => ?_, fun hbelow hheld => ?_⟩⟩
  · rw [step_physRead hp hq, physRead, State.setRequests_cfg, checkPhys_beyond hbeyond]
    rfl
  · rw [step_physRead hp hq, ← map_read_physRange s.mem hbelow]
    exact (physRead_next_iff _ _ _ _).2 ⟨(checkPhys_ok_iff _ _ _).2 hbelow, rfl⟩
  · rw [step_physWrite hp hq, physWrite, State.setRequests_cfg, checkPhys_beyond hbeyond]
    rfl
  · have hnodup : (((physRange pa bytes.length).zip bytes).map Prod.fst).Nodup :=
      (physRange_nodup hbelow).sublist (map_fst_zip_sublist _ _)
    have hsame : ∀ c ∈ (physRange pa bytes.length).zip bytes, ∀ e ∈ s.entriesRead, inEntry e c.1 = true →
        s.mem.read c.1.toNat = c.2 := by
      intro c hc e he hin
      obtain ⟨k, hk, rfl⟩ := mem_physRange_zip.1 hc
      rw [inEntry_iff, physAddr_toNat hbelow hk] at hin
      rw [physAddr_toNat hbelow hk]
      exact hheld k hk e he hin.1 hin.2
    obtain ⟨u, hu⟩ := storeBytes_completes _ (s.setRequests rest) hsame
    obtain ⟨d, hchanged, -, hd⟩ := storeBytes_changed _ (s := s.setRequests rest) hwf hu
    refine ⟨u.respond [.bytesWritten], ?_, ?_, fun k hk => ?_, fun a ha => ?_, ?_⟩
    · rw [step_physWrite hp hq]
      exact (physWrite_next_iff _ _ _ _).2 ⟨(checkPhys_ok_iff _ _ _).2 hbelow, u, hu, rfl⟩
    · rw [storeBytes_frame _ hu]
      rfl
    · rw [← physAddr_toNat hbelow hk]
      exact storeBytes_read_of_mem (s := s.setRequests rest) (t := u) hwf hu hnodup (mem_physRange_zip.2 ⟨k, hk, rfl⟩)
    · refine storeBytes_read_other _ hu a fun c hc => ?_
      obtain ⟨k, hk, rfl⟩ := mem_physRange_zip.1 hc
      rw [physAddr_toNat hbelow hk]
      omega
    · rw [State.respond_changed, hchanged, hd hnodup]
      rfl

/-- Settles O41: both stores by `storeBytes_refused`, the walk's read by `readEntry_changed`. -/
theorem changedTablesRefused : Obligations.ChangedTablesRefused := by
  refine ⟨fun s r pas bytes hp hkind hstore => ?_, fun s pa bytes rest hp hq hbelow hstore => ?_,
    fun s w l b hp hstage hbelow hchanged => ?_⟩
  · rw [step_finishing hp, answer_write hkind, storeBytes_refused (s := s.setPhase .idle) hstore]
    rfl
  · obtain ⟨k, hk, e, he, hlow, hhigh, hne⟩ := hstore
    have hrefused : storeBytes ((physRange pa bytes.length).zip bytes) (s.setRequests rest) =
        .error (.refused .tableChanged) := by
      refine storeBytes_refused ⟨_, mem_physRange_zip.2 ⟨k, hk, rfl⟩, e, he, ?_, ?_⟩
      · rw [inEntry_iff, physAddr_toNat hbelow hk]
        exact ⟨hlow, hhigh⟩
      · rw [physAddr_toNat hbelow hk]
        exact hne
    rw [step_physWrite hp hq, physWrite, State.setRequests_cfg, (checkPhys_ok_iff _ _ _).2 hbelow, hrefused]
    rfl
  · rw [step_table s w l b hp hstage, readEntry_changed hbelow hchanged]
    rfl

end Sys2Proof.Machine
end

section
/-! PROOFS. The steps of the machine perform a whole reference (R36, R60): one step for CR3, one for each entry read, one for the
ending of each byte, and one for the answer (log 2). -/

namespace Sys2Proof.Machine

/-! ### Steps that perform an operation -/

/-- Some number of steps from `u` gives the state or the stop of the operation `x`. -/
def Performs (u : State) (x : Except Stop State) : Prop := ∃ k, steps k u = outcomeOf x

/-- Steps that give the state `f a` or the stop of `x`, and then steps from `f a` that perform `g a`. -/
theorem Performs.bind {α : Type} {u : State} {x : Except Stop α} {f : α → State} {g : α → Except Stop State}
    (h : Performs u (x.map f)) (hg : ∀ a, x = .ok a → Performs (f a) (g a)) : Performs u (x >>= g) := by
  obtain ⟨j, hj⟩ := h
  cases x with
  | error e => exact ⟨j, hj⟩
  | ok a =>
    obtain ⟨k, hk⟩ := hg a rfl
    exact ⟨j + k, (steps_add k hj).trans hk⟩

/-! ### The Translate of one byte -/

/-- The reading of the entry that `va` selects in the table at `base`, and its check (R62 to R66). -/
def readChecked (s : State) (va : VAddr) (acc : Acc) (l : Level) (base : PAddr) : Except Stop Word := do
  let e ← readEntry s (entryAddr base (tableIndex l va))
  checkEntry s.cfg e l va acc
  return e

theorem readChecked_bind (s : State) (va : VAddr) (acc : Acc) (l : Level) (base : PAddr) (g : Word → Except Stop Translation) :
    readChecked s va acc l base >>= g = (do
      let e ← readEntry s (entryAddr base (tableIndex l va))
      checkEntry s.cfg e l va acc
      g e) := by
  simp only [readChecked, bind_assoc, pure_bind]

/-- A step of a walk at a table: the checked read, and then the use of the entry. -/
theorem step_table_eq {s : State} {w : Walk} {l : Level} {b : PAddr} (hp : s.phase = .walking w)
    (hstage : w.stage = .table l b) : step s = outcomeOf ((readChecked s w.va w.ref.acc l b).map fun e =>
      afterEntry w l b (e.getLsbD 1) (e.getLsbD 2) (e.getLsbD 63) (nextStage l e) s) := by
  rw [step_table s w l b hp hstage, readChecked]
  cases readEntry s (entryAddr b (tableIndex l w.va)) with
  | error st => rfl
  | ok e =>
    simp only [bind, Except.bind]
    cases checkEntry s.cfg e l w.va w.ref.acc <;> rfl

/-- One more entry's R/W, U/S and NX join `Attr` of the entries before it (R90). -/
theorem meet_attrOf (es : List Word) (e : Word) :
    meet (attrOf es) (e.getLsbD 1) (e.getLsbD 2) (e.getLsbD 63) = attrOf (es ++ [e]) := by
  simp [meet, attrOf]

theorem State.noteRead_noteRead (s : State) (l l' : List PAddr) : (s.noteRead l).noteRead l' = s.noteRead (l ++ l') := by
  simp [State.noteRead]

/-- An ending that succeeds gives the translation it was handed. -/
theorem leaf_ok {s : State} {va : VAddr} {acc : Acc} {level : Level} {es : List Word} {t u : Translation}
    (h : leaf s va acc level es t = .ok u) : u = t := by
  simp only [leaf, bind_unit_ok_iff] at h
  exact (Except.ok.inj h.2.2).symm

section
variable (s : State) (w : Walk)

/-- The state in the walk of `w`'s byte from `s`, at a stage, having read the entries `es` at the addresses `reads`. -/
def walkState (stage : Stage) (reads : List PAddr) (es : List Word) : State :=
  (s.setStarted.noteRead reads).setPhase (.walking { w with stage := stage, attr := attrOf es })

/-- The state after the Translate of `w`'s byte from `s`. -/
def afterTranslate (t : Translation) : State := (s.setStarted.noteRead t.reads).setPhase (afterByte w t.pa)

/-- The step that reads an entry in a walk under way. -/
theorem step_walkState_table (l : Level) (base : PAddr) (reads : List PAddr) (es : List Word) :
    step (walkState s w (.table l base) reads es) = outcomeOf ((readChecked s w.va w.ref.acc l base).map fun e =>
      walkState s w (nextStage l e) (reads ++ [entryAddr base (tableIndex l w.va)]) (es ++ [e])) := by
  simp only [walkState, ← meet_attrOf, ← State.noteRead_noteRead]
  exact step_table_eq (w := { w with stage := .table l base, attr := attrOf es }) rfl rfl

/-- The permission check and the bound of an ending (R65, R70, R75, R90). -/
theorem endByte_walkState (level : Level) (stage : Stage) (es : List Word) (t : Translation) :
    endByte level { w with stage := stage, attr := attrOf es } t.pa (walkState s w stage t.reads es) =
      outcomeOf ((leaf s w.va w.ref.acc level es t).map (afterTranslate s w)) := by
  have hcfg : (walkState s w stage t.reads es).cfg = s.cfg := rfl
  unfold endByte leaf
  rw [hcfg]
  cases permits s.cfg.permCheck w.ref.acc (attrOf es)
  · rfl
  · cases beyondPabits s.cfg t.pa <;> rfl

/-- From `u`, where `w`'s walk from `s` has read the entries at `reads`, the machine performs the rest `x` of the Translate: one
step for each entry still to be read, and one for the ending. -/
def Translates (u : State) (reads : List PAddr) (x : Except Stop Translation) : Prop :=
  ∃ k, steps k u = outcomeOf (x.map (afterTranslate s w)) ∧ k + reads.length ≤ 5 ∧
    ∀ t, x = .ok t → k + reads.length = t.reads.length + 1

variable {s w}

/-- An ending takes one step. -/
theorem Translates.ending {stage : Stage} {level : Level} {es : List Word} {t : Translation} (hreads : t.reads.length ≤ 4)
    (h : step (walkState s w stage t.reads es) =
      endByte level { w with stage := stage, attr := attrOf es } t.pa (walkState s w stage t.reads es)) :
    Translates s w (walkState s w stage t.reads es) t.reads (leaf s w.va w.ref.acc level es t) := by
  refine ⟨1, (steps_one _).trans (h.trans (endByte_walkState ..)), by omega, fun t' ht => ?_⟩
  rw [leaf_ok ht, Nat.add_comm]

section
variable {reads : List PAddr} {es : List Word} (hc : canonical48 w.va = true) (hreads : reads.length ≤ 4)
include hc hreads

theorem translates_leaf4K (base : BitVec 40) (page : PageSize) :
    Translates s w (walkState s w (.leaf4K base) reads es) reads
      (leaf s w.va w.ref.acc .pt es { pa := base ++ w.va.extractLsb' 0 12, page := page, reads := reads }) :=
  Translates.ending (t := { pa := _, page := _, reads := reads }) hreads (step_leaf4K _ _ base rfl rfl hc)

theorem translates_leaf2M (base : BitVec 31) (page : PageSize) :
    Translates s w (walkState s w (.leaf2M base) reads es) reads
      (leaf s w.va w.ref.acc .pd es { pa := base ++ w.va.extractLsb' 0 21, page := page, reads := reads }) :=
  Translates.ending (t := { pa := _, page := _, reads := reads }) hreads (step_leaf2M _ _ base rfl rfl hc)

theorem translates_leaf1G (base : BitVec 22) (page : PageSize) :
    Translates s w (walkState s w (.leaf1G base) reads es) reads
      (leaf s w.va w.ref.acc .pdp es { pa := base ++ w.va.extractLsb' 0 30, page := page, reads := reads }) :=
  Translates.ending (t := { pa := _, page := _, reads := reads }) hreads (step_leaf1G _ _ base rfl rfl hc)

end

/-- The reading of an entry takes one step. -/
theorem Translates.read {l : Level} {base : PAddr} {reads : List PAddr} {es : List Word}
    {g : Word → Except Stop Translation} (hreads : reads.length ≤ 3)
    (hg : ∀ e, Translates s w
      (walkState s w (nextStage l e) (reads ++ [entryAddr base (tableIndex l w.va)]) (es ++ [e]))
      (reads ++ [entryAddr base (tableIndex l w.va)]) (g e)) :
    Translates s w (walkState s w (.table l base) reads es) reads (do
      let e ← readEntry s (entryAddr base (tableIndex l w.va))
      checkEntry s.cfg e l w.va w.ref.acc
      g e) := by
  rw [← readChecked_bind]
  have hstep := step_walkState_table s w l base reads es
  cases hread : readChecked s w.va w.ref.acc l base with
  | error e =>
    rw [hread] at hstep
    exact ⟨1, (steps_one _).trans hstep, by omega, fun t ht => by cases ht⟩
  | ok e =>
    rw [hread] at hstep
    obtain ⟨k, hk, hbound, hcount⟩ := hg e
    simp only [List.length_append, List.length_singleton] at hbound hcount
    exact ⟨k + 1, (steps_next hstep k).trans hk, by omega, fun t ht => by have := hcount t ht; omega⟩

/-- The steps from the PML4 table on perform the rest of a Translate (R62 to R65, R70, R75). -/
theorem translates_from_pml4 (hpre : precondition s = .ok ()) (hc : canonical s.cfg.vaBits w.va = true) :
    Translates s w (walkState s w (.table .pml4 (pml4Base s.cr3)) [] []) [] (translateVa s w.va w.ref.acc) := by
  have hbits : s.cfg.vaBits = 48 := ((precondition_ok_iff s).1 hpre).1.2.2
  have hc48 : canonical48 w.va = true := by rw [← canonical_48_eq, ← hbits, hc]
  rw [translateVa, hpre, hc]
  refine Translates.read (reads := []) (by simp) fun pml4e => ?_
  refine Translates.read (by simp) fun pdpe => ?_
  simp only [List.nil_append, List.cons_append]
  cases hpdpe : pdpe.getLsbD 7 with
  | true =>
    simp only [nextStage, hpdpe, if_true]
    exact translates_leaf1G hc48 (by simp) _ _
  | false =>
    simp only [nextStage, hpdpe, Bool.false_eq_true, if_false]
    refine Translates.read (by simp) fun pde => ?_
    simp only [List.cons_append, List.nil_append]
    cases hpde : pde.getLsbD 7 with
    | true =>
      simp only [nextStage, hpde, if_true]
      exact translates_leaf2M hc48 (by simp) _ _
    | false =>
      simp only [nextStage, hpde, Bool.false_eq_true, if_false]
      refine Translates.read (by simp) fun pte => ?_
      simp only [List.cons_append, List.nil_append]
      exact translates_leaf4K hc48 (by simp) _ _

end

theorem State.noteRead_nil (s : State) : s.noteRead [] = s := by
  simp [State.noteRead]

/-- From the state in which CR3 is awaited the machine performs the Translate of a byte in two steps more than it reads entries; in
six at most where it stops. -/
theorem steps_translateVa {s : State} {w : Walk} (hp : s.phase = .walking w) (hroot : w.stage = .root)
    (hpre : precondition s = .ok ()) (hc : canonical s.cfg.vaBits w.va = true) :
    ∃ k, steps k s = outcomeOf ((translateVa s w.va w.ref.acc).map (afterTranslate s w)) ∧ k ≤ 6 ∧
      ∀ t, translateVa s w.va w.ref.acc = .ok t → k = t.reads.length + 2 := by
  have hstep : step s = .next (walkState s w (.table .pml4 (pml4Base s.cr3)) [] []) := by
    rw [step_root s w hp hroot hpre hc, walkState, State.noteRead_nil]
    rfl
  obtain ⟨k, hk, hbound, hcount⟩ := translates_from_pml4 hpre hc
  exact ⟨k + 1, (steps_next hstep k).trans hk, Nat.succ_le_succ hbound, fun t ht => congrArg (· + 1) (hcount t ht)⟩

/-! ### The Translates of all bytes -/

section
variable (s : State) (r : Reference)

/-- The walk of the next byte of `r` once its first bytes have the translations `ts`. -/
def byteWalk (r : Reference) (ts : List Translation) : Walk :=
  { ref := r, done := ts.map (·.pa), stage := .root, attr := noEntries }

/-- The state of the reference `r` from `s` once its first bytes have the translations `ts`. -/
def bytesDone (ts : List Translation) : State :=
  (afterTranslates s ts).setPhase
    (if ts.length < r.size then .walking (byteWalk r ts) else .finishing r (ts.map (·.pa)))

theorem byteWalk_va (ts : List Translation) : (byteWalk r ts).va = r.byteVa ts.length :=
  congrArg r.byteVa (List.length_map _)

theorem bytesDone_nil : bytesDone s r [] = s.setPhase (firstPhase r) := by
  by_cases hsize : r.size = 0
  · simp [bytesDone, firstPhase, hsize]
  · simp [bytesDone, firstPhase, hsize, Nat.pos_of_ne_zero hsize, firstByte, byteWalk]

theorem afterTranslates_concat (ts : List Translation) (t : Translation) :
    afterTranslates s (ts ++ [t]) = (afterTranslates s ts).setStarted.noteRead t.reads := by
  cases ts with
  | nil => simp
  | cons u us =>
    rw [List.cons_append, afterTranslates_cons, afterTranslates_cons, List.flatMap_append, List.flatMap_singleton,
      ← List.append_assoc, ← State.noteRead_noteRead]
    rfl

/-- A translation reads neither the phase nor what earlier Translates of the reference have recorded. -/
theorem translateVa_afterTranslates (ts : List Translation) (p : Phase) :
    translateVa ((afterTranslates s ts).setPhase p) = translateVa s := by
  cases ts <;> rfl

theorem precondition_afterTranslates (ts : List Translation) (p : Phase) :
    precondition ((afterTranslates s ts).setPhase p) = precondition s := by
  cases ts <;> rfl

theorem afterTranslates_cfg (ts : List Translation) : (afterTranslates s ts).cfg = s.cfg := by
  cases ts <;> rfl

theorem afterTranslates_phase (ts : List Translation) : (afterTranslates s ts).phase = s.phase := by
  cases ts <;> rfl

theorem length_translateBytes {ks : List Nat} {ts : List Translation} (h : translateBytes s r ks = .ok ts) :
    ts.length = ks.length := by
  induction ks generalizing ts with
  | nil => cases h; rfl
  | cons k ks ih =>
    obtain ⟨t, -, h⟩ := (bind_ok_iff _ _ _).1 h
    obtain ⟨us, hus, h⟩ := (bind_ok_iff _ _ _).1 h
    cases h
    rw [List.length_cons, List.length_cons, ih hus]

variable {s r}

/-- The Translate of the next byte (R36, R60). -/
theorem performs_byte (hpre : precondition s = .ok ()) (hall : allCanonical s.cfg.vaBits r = true)
    {ts : List Translation} (hts : ts.length < r.size) :
    Performs (bytesDone s r ts)
      ((translateVa s (r.byteVa ts.length) r.acc).map fun t => bytesDone s r (ts ++ [t])) := by
  have hdone : bytesDone s r ts = (afterTranslates s ts).setPhase (.walking (byteWalk r ts)) := by
    rw [bytesDone, if_pos hts]
  have hafter : afterTranslate (bytesDone s r ts) (byteWalk r ts) = fun t => bytesDone s r (ts ++ [t]) := funext fun t => by
    simp only [afterTranslate, afterByte, bytesDone, afterTranslates_concat, byteWalk, List.length_map, List.length_append,
      List.length_singleton, List.map_append, List.map_singleton]
    rfl
  have hc : canonical (bytesDone s r ts).cfg.vaBits (byteWalk r ts).va = true := by
    rw [hdone, byteWalk_va, State.setPhase_cfg, afterTranslates_cfg]
    exact canonical_of_allCanonical hall hts
  obtain ⟨k, hk, -, -⟩ := steps_translateVa (by rw [hdone]; rfl) rfl
    (by rw [hdone, precondition_afterTranslates, hpre]) hc
  refine ⟨k, hk.trans ?_⟩
  rw [hafter, byteWalk_va, hdone, translateVa_afterTranslates]
  rfl

/-- The Translates of the last `n` bytes (R36, R91). -/
theorem performs_bytes (hpre : precondition s = .ok ()) (hall : allCanonical s.cfg.vaBits r = true) (n : Nat) :
    ∀ ts : List Translation, ts.length + n = r.size →
      Performs (bytesDone s r ts)
        ((translateBytes s r (List.range' ts.length n)).map fun us => bytesDone s r (ts ++ us)) := by
  induction n with
  | zero =>
    intro ts _
    refine ⟨0, ?_⟩
    simp [translateBytes, steps, Except.map, outcomeOf]
  | succ n ih =>
    intro ts hts
    have hsplit : (translateBytes s r (List.range' ts.length (n + 1))).map (fun us => bytesDone s r (ts ++ us)) =
        translateVa s (r.byteVa ts.length) r.acc >>= fun t =>
          (translateBytes s r (List.range' (ts.length + 1) n)).map fun us => bytesDone s r (ts ++ t :: us) := by
      rw [List.range'_succ, translateBytes]
      cases translateVa s (r.byteVa ts.length) r.acc with
      | error e => rfl
      | ok t => cases translateBytes s r (List.range' (ts.length + 1) n) <;> rfl
    rw [hsplit]
    refine (performs_byte hpre hall (by omega)).bind fun t _ => ?_
    have htail := ih (ts ++ [t]) (by rw [List.length_append, List.length_singleton]; omega)
    simpa only [List.length_append, List.length_singleton, List.append_assoc, List.singleton_append] using htail

/-- The answer, once every byte has its translation. -/
theorem performs_answer (hidle : s.phase = .idle) {ts : List Translation} (hts : ts.length = r.size) :
    Performs (bytesDone s r ts) (answer r (ts.map (·.pa)) (afterTranslates s ts)) := by
  have hdone : bytesDone s r ts = (afterTranslates s ts).setPhase (.finishing r (ts.map (·.pa))) := by
    rw [bytesDone, if_neg (by omega)]
  have hback : (bytesDone s r ts).setPhase .idle = afterTranslates s ts := by
    rw [hdone, State.setPhase, State.setPhase, ← hidle, ← afterTranslates_phase s ts]
  refine ⟨1, ?_⟩
  rw [steps_one, step_finishing (pas := ts.map (·.pa)) (by rw [hdone]; rfl), hback]

end

/-- Settles O52: the checks in one step, then byte by byte, then the answer. -/
theorem machinePerformsReferences : Obligations.MachinePerformsReferences := by
  intro s r rest hp hq
  cases hcheck : checkReference s r with
  | error e =>
    have hserve : serveReference (s.setRequests rest) r = .error e := by
      rw [serveReference, checkReference_setRequests, hcheck]
      rfl
    refine ⟨1, Nat.le_refl 1, ?_⟩
    rw [steps_one, step_reference_error hp hq hcheck, hserve]
    rfl
  | ok _ =>
    obtain ⟨hpre, -, hall⟩ := (checkReference_ok_iff (s.setRequests rest) r).1 hcheck
    have hbytes := performs_bytes hpre hall r.size [] (Nat.zero_add _)
    rw [List.length_nil, ← List.range_eq_range'] at hbytes
    obtain ⟨k, hk⟩ := hbytes.bind fun ts hts =>
      performs_answer (r := r) (s := s.setRequests rest) hp ((length_translateBytes _ _ hts).trans List.length_range)
    refine ⟨k + 1, Nat.le_add_left 1 k, ?_⟩
    rw [steps_next (step_reference_ok hp hq hcheck), ← bytesDone_nil, hk, serveReference,
      checkReference_setRequests, hcheck]
    rfl

end Sys2Proof.Machine
end

section
/-! PROOFS. Which words each slot reads as a row (R54, R66, R22), and what the three virtual-address formats read in one word
(R40 to R43). -/

namespace Sys2Proof

/-! ### Entries -/

/-- A test that rejects a word leaves the words it lets by to the tests after it. -/
theorem exists_ok_of_reject_iff {ε α : Type} {p : Prop} [Decidable p] {e : ε} {x : Except ε α} :
    (∃ a, (if p then .error e else x) = .ok a) ↔ ¬p ∧ ∃ a, x = .ok a := by
  by_cases hp : p <;> simp [hp]

/-- A row whose PS is clear has no must-be-zero bits; one whose PS is set has those of its page (R54). -/
theorem exists_ok_of_pageSize_iff {ε α : Type} {ps : Bool} {p : Prop} [Decidable p] {e : ε} {a b : α} :
    (∃ i, (if ps = false then .ok a else if ¬p then .error e else .ok b : Except ε α) = .ok i) ↔ (ps = true → p) := by
  cases ps <;> by_cases hp : p <;> simp [hp]

theorem pml4_decodes_iff (w : Word) :
    (∃ i, decodeWord .pml4 w = .ok i) ↔ w.getLsbD 0 = true ∧ w.extractLsb' 7 2 = 0#2 := by
  simp only [decodeWord, exists_ok_of_reject_iff, Bool.not_eq_false, ne_eq, not_not, Except.ok.injEq, exists_eq', and_true]

theorem pdp_decodes_iff (w : Word) : (∃ i, decodeWord .pdp w = .ok i) ↔
    w.getLsbD 0 = true ∧ (w.getLsbD 7 = true → w.extractLsb' 13 17 = 0#17) := by
  simp only [decodeWord, exists_ok_of_reject_iff, Bool.not_eq_false, ne_eq, exists_ok_of_pageSize_iff]

theorem pd_decodes_iff (w : Word) : (∃ i, decodeWord .pd w = .ok i) ↔
    w.getLsbD 0 = true ∧ (w.getLsbD 7 = true → w.extractLsb' 13 8 = 0#8) := by
  simp only [decodeWord, exists_ok_of_reject_iff, Bool.not_eq_false, ne_eq, exists_ok_of_pageSize_iff]

theorem pt_decodes_iff (w : Word) : (∃ i, decodeWord .pt w = .ok i) ↔ w.getLsbD 0 = true := by
  simp only [decodeWord, exists_ok_of_reject_iff, Bool.not_eq_false, Except.ok.injEq, exists_eq', and_true]

/-- P is tested first (R66), and no later test gives its reason. -/
theorem decodeWord_notPresent_iff {slot : Slot} (hslot : slot = .pml4 ∨ slot = .pdp ∨ slot = .pd ∨ slot = .pt) (w : Word) :
    decodeWord slot w = .error .notPresent ↔ w.getLsbD 0 = false := by
  rcases hslot with rfl | rfl | rfl | rfl <;> simp [decodeWord, ite_eq_iff]

/-- Settles O4: the tests of each slot one after the other, P first. -/
theorem entriesDecodeUnlessReserved : Obligations.EntriesDecodeUnlessReserved := fun w =>
  ⟨pml4_decodes_iff w, pdp_decodes_iff w, pd_decodes_iff w, pt_decodes_iff w, fun _ hslot => decodeWord_notPresent_iff hslot w⟩

/-- Settles O3, by evaluating the decoder on the nine words. -/
theorem specWordsDecode : Obligations.SpecWordsDecode := by
  unfold Obligations.SpecWordsDecode
  decide

/-! ### Virtual addresses -/

/-- The one test of the three virtual-address slots is canonical form (R22, R40 to R42). -/
theorem va_decodes_iff {slot : Slot} (hslot : slot = .va4K ∨ slot = .va2M ∨ slot = .va1G) (va : Word) :
    (∃ i, decodeWord slot va = .ok i) ↔ Machine.canonical 48 va = true := by
  rw [Machine.canonical_48_eq]
  rcases hslot with rfl | rfl | rfl <;> simp [decodeWord, ite_eq_iff]

section
variable (va : Word)

/-- `Offset2M = PTIndex ‖ Offset4K` (R41). -/
theorem Va2M.offset_eq : (Va2M.ofWord va).offset = (Va4K.ofWord va).ptIndex ++ (Va4K.ofWord va).offset :=
  (fieldAt_append va 0 (Va4K.ofWord va).ptIndex (Va4K.ofWord va).offset).2 ⟨rfl, rfl⟩

/-- `Offset1G = PDIndex ‖ PTIndex ‖ Offset4K` (R42). -/
theorem Va1G.offset_eq :
    (Va1G.ofWord va).offset = (Va4K.ofWord va).pdIndex ++ (Va4K.ofWord va).ptIndex ++ (Va4K.ofWord va).offset :=
  (fieldAt_append va 0 ((Va4K.ofWord va).pdIndex ++ (Va4K.ofWord va).ptIndex) (Va4K.ofWord va).offset).2
    ⟨(fieldAt_append va 12 (Va4K.ofWord va).pdIndex (Va4K.ofWord va).ptIndex).2 ⟨rfl, rfl⟩, rfl⟩

end

/-- Settles O6: one test for all three, and fields cut from the same bits. -/
theorem addressFormatsAgree : Obligations.AddressFormatsAgree := by
  intro va
  refine ⟨va_decodes_iff (.inl rfl) va, va_decodes_iff (.inr (.inl rfl)) va, va_decodes_iff (.inr (.inr rfl)) va,
    fun hcanonical => ?_⟩
  rw [Machine.canonical_48_eq] at hcanonical
  exact ⟨Va4K.ofWord va, Va2M.ofWord va, Va1G.ofWord va, if_pos hcanonical, if_pos hcanonical, if_pos hcanonical,
    rfl, rfl, rfl, rfl, rfl, rfl, rfl, Va2M.offset_eq va, Va1G.offset_eq va⟩

end Sys2Proof
end

section
/-! PROOFS. PDE.PS, bit 7, in a step (R44): the row that a present entry is read as, and the stage that the row leads to. -/

namespace Sys2Proof.Machine

variable {s t : State} {w : Walk}

/-- A step of a walk that completes has run the awaited word as a row. -/
theorem step_walking_next (hp : s.phase = .walking w) (h : step s = .next t) :
    ∃ e i, fetchWord w s = .ok e ∧ decodeWord w.stage.slot e = .ok i ∧ exec i s = .next t := by
  obtain ⟨hidle, -⟩ | ⟨w', e, i, hp', hfetch, hdecode, hexec⟩ | ⟨r, pas, hfinish, -⟩ := step_next_cases h
  · cases hp.symm.trans hidle
  · cases hp.symm.trans hp'
    exact ⟨e, i, hfetch, hdecode, hexec⟩
  · cases hp.symm.trans hfinish

/-- A word read as a PDE is the row that its bit 7 selects, with the word's fields (R44, R49, R51). -/
theorem decode_pd_cases {e : Word} {i : Instr} (h : decodeWord .pd e = .ok i) :
    (e.getLsbD 7 = false ∧ i = .pdePt (PdePt.ofWord e)) ∨ (e.getLsbD 7 = true ∧ i = .pde2M (Pde2M.ofWord e)) := by
  simp only [decodeWord] at h
  split_ifs at h with hpresent hps hzero <;> cases h
  · exact .inl ⟨hps, rfl⟩
  · exact .inr ⟨eq_true_of_ne_false hps, rfl⟩

/-- A word read as a PTE is the one row of the slot (R50). -/
theorem decode_pt_eq {e : Word} {i : Instr} (h : decodeWord .pt e = .ok i) : i = .pte (Pte.ofWord e) := by
  simp only [decodeWord] at h
  split_ifs at h with hpresent
  exact (Except.ok.inj h).symm

/-- An entry that is used takes the walk to the stage it leads to. -/
theorem useEntry_next_stage {level : Level} {base : PAddr} {rw us nx : Bool} {next : Stage}
    (h : useEntry level base rw us nx next s = .next t) : ∃ w', t.phase = .walking w' ∧ w'.stage = next := by
  obtain ⟨w, b, -, -, -, rfl⟩ := (useEntry_next_iff ..).1 h
  exact ⟨_, rfl, rfl⟩

/-- Settles O5: bit 7 fixes the row, and the row fixes the next stage. -/
theorem pdePageSizeBitSelects : Obligations.PdePageSizeBitSelects := by
  constructor
  · intro s t w b e hp hstage hfetch h
    obtain ⟨e', i, hfetch', hdecode, hexec⟩ := step_walking_next hp h
    cases hfetch.symm.trans hfetch'
    rw [hstage] at hdecode
    obtain ⟨hps, rfl⟩ | ⟨hps, rfl⟩ := decode_pd_cases hdecode
    · obtain ⟨w', hphase, hnext⟩ := useEntry_next_stage hexec
      exact ⟨fun _ => ⟨hdecode, w', _, hphase, hnext⟩, fun hset => by simp only [hps, Bool.false_eq_true] at hset⟩
    · obtain ⟨w', hphase, hnext⟩ := useEntry_next_stage hexec
      exact ⟨fun hclear => by simp only [hps, Bool.true_eq_false] at hclear, fun _ => ⟨hdecode, w', _, hphase, hnext⟩⟩
  · intro s t w b hp hstage h
    obtain ⟨e, i, -, hdecode, hexec⟩ := step_walking_next hp h
    rw [hstage] at hdecode
    cases decode_pt_eq hdecode
    obtain ⟨w', hphase, hnext⟩ := useEntry_next_stage hexec
    exact ⟨w', _, hphase, hnext⟩

end Sys2Proof.Machine
end

section
/-! PROOFS. The rows of a walk that complete: what each leads to (R63 to R65, R70, R75), the row that a step runs, and the
concatenations that form addresses (R67). -/

namespace Sys2Proof.Machine

variable {s : State} {w : Walk}

/-- Settles O11: a concatenation in numbers, once or twice. -/
theorem addressesConcatenateWithoutCarry : Obligations.AddressesConcatenateWithoutCarry := by
  refine ⟨toNat_append_eq, toNat_append_eq, toNat_append_eq, fun base i => ?_⟩
  rw [entryAddr, toNat_append_zero, toNat_append_eq]
  omega

/-- Settles O17: the three parts of a walk's step, one after the other. -/
theorem stepRunsTheAwaitedWord : Obligations.StepRunsTheAwaitedWord := by
  intro s w word i hp hfetch hdecode
  have hstep : step s = exec i s := by simp only [step, hp, hfetch, hdecode]
  exact ⟨hstep, hstep⟩

/-! ### The entry rows -/

/-- An entry row at its level whose base lies below 2^PABITS (R66). -/
theorem useEntry_completes {level : Level} {base b : PAddr} {rw us nx : Bool} {next : Stage} (hp : s.phase = .walking w)
    (hstage : w.stage = .table level b) (h : base.toNat < 2 ^ s.cfg.paBits) :
    useEntry level base rw us nx next s = .next (afterEntry w level b rw us nx next s) :=
  (useEntry_next_iff ..).2 ⟨w, b, hp, hstage, (beyondPabits_eq_false_iff _ _).2 h, rfl⟩

/-- Settles O21: each pointer row is `useEntry` with the next table as its stage. -/
theorem pointerRowsGoToTheNextTable : Obligations.PointerRowsGoToTheNextTable := by
  intro s w b hp
  have hbase : ∀ field : BitVec 40, field.toNat * 4096 < 2 ^ s.cfg.paBits → (field ++ 0#12).toNat < 2 ^ s.cfg.paBits :=
    fun _ h => (toNat_append_zero ..).trans_lt h
  exact ⟨fun f hstage h => useEntry_completes hp hstage (hbase f.base h),
    fun f hstage h => useEntry_completes hp hstage (hbase f.base h),
    fun f hstage h => useEntry_completes hp hstage (hbase f.base h)⟩

/-- Settles O22: each final row is `useEntry` with the ending of its page size as its stage. -/
theorem finalRowsGiveThePageBase : Obligations.FinalRowsGiveThePageBase := by
  intro s w b hp
  have hbase : ∀ {n k : Nat} (field : BitVec n), field.toNat * 2 ^ k < 2 ^ s.cfg.paBits →
      (field ++ 0#k).toNat < 2 ^ s.cfg.paBits := fun _ h => (toNat_append_zero ..).trans_lt h
  refine ⟨fun f hstage h => useEntry_completes hp hstage (hbase f.base h),
    fun f hstage h => useEntry_completes hp hstage (hbase f.base h), fun f hpage hstage h => ?_⟩
  simp only [exec, execPdpe1G, hpage, if_true]
  exact useEntry_completes hp hstage (hbase f.base h)

/-! ### The VA rows -/

section
variable (hp : s.phase = .walking w)
include hp

theorem exec_va4K {base : BitVec 40} (f : Va4K) (hstage : w.stage = .leaf4K base) :
    exec (.va4K f) s = endByte .pt w (base ++ f.offset) s := by
  simp only [exec, execVa4K, hp, hstage, pageAddr4K]

theorem exec_va2M {base : BitVec 31} (f : Va2M) (hstage : w.stage = .leaf2M base) :
    exec (.va2M f) s = endByte .pd w (base ++ f.offset) s := by
  simp only [exec, execVa2M, hp, hstage, pageAddr2M]

theorem exec_va1G {base : BitVec 22} (f : Va1G) (hstage : w.stage = .leaf1G base) :
    exec (.va1G f) s = endByte .pdp w (base ++ f.offset) s := by
  simp only [exec, execVa1G, hp, hstage, pageAddr1G]

end

/-- An ending that PermCheck allows, below 2^PABITS. -/
theorem endByte_completes {level : Level} {pa : PAddr} (hperm : permits s.cfg.permCheck w.ref.acc w.attr = true)
    (h : pa.toNat < 2 ^ s.cfg.paBits) : endByte level w pa s = .next (s.setPhase (afterByte w pa)) :=
  (endByte_next_iff ..).2 ⟨hperm, (beyondPabits_eq_false_iff _ _).2 h, rfl⟩

/-- Settles O23: each VA row is `endByte` at the concatenation of base and offset. -/
theorem addressRowsFormThePhysicalAddress : Obligations.AddressRowsFormThePhysicalAddress := by
  intro s w hp hperm
  refine ⟨fun f base hstage h => ?_, fun f base hstage h => ?_, fun f base hstage h => ?_⟩
  · rw [exec_va4K hp f hstage]
    exact endByte_completes hperm ((toNat_append_eq ..).trans_lt h)
  · rw [exec_va2M hp f hstage]
    exact endByte_completes hperm ((toNat_append_eq ..).trans_lt h)
  · rw [exec_va1G hp f hstage]
    exact endByte_completes hperm ((toNat_append_eq ..).trans_lt h)

end Sys2Proof.Machine
end

section
/-! PROOFS. The checks of R61 and R66 as tests on bits and numbers: when a reference begins, and what the step that reads an entry
does with it. -/

namespace Sys2Proof.Machine

/-! ### The precondition (R61) -/

/-- The precondition, bit by bit. -/
theorem precondition_ok_iff_fields (s : State) : precondition s = .ok () ↔
    s.longMode = true ∧ s.cr4Pae = true ∧ s.cfg.vaBits = 48 ∧ s.cr3.extractLsb' 52 12 = 0#12 ∧
      s.cr3.extractLsb' 5 7 = 0#7 ∧ s.cr3.extractLsb' 0 3 = 0#3 ∧
      (s.cr3.extractLsb' 12 40).toNat * 4096 < 2 ^ s.cfg.paBits := by
  rw [precondition_ok_iff, cr3ReservedClear_iff, ← Bool.not_eq_true (beyondPabits _ _), beyondPabits_pml4Base_iff, Nat.not_le]
  simp only [and_assoc]

/-- A failed precondition is a refusal, never an exception. -/
theorem refused_of_precondition_error {s : State} {e : Stop} (h : precondition s = .error e) :
    ∃ reason, e = .refused reason := by
  simp only [precondition, checkMode, checkCr3, guardStop] at h
  split_ifs at h <;> cases h <;> exact ⟨_, rfl⟩

theorem checkReference_error_of_precondition {s : State} {e : Stop} (r : Reference) (h : precondition s = .error e) :
    checkReference s r = .error e := by
  rw [checkReference, h]
  rfl

/-- Settles O32: the precondition is the first check of a reference; the others are met by hypothesis. -/
theorem preconditionOfAReference : Obligations.PreconditionOfAReference := by
  intro s r rest hp hq
  rw [← precondition_ok_iff_fields]
  constructor
  · intro hnot
    cases hpre : precondition s with
    | ok u => exact absurd hpre hnot
    | error e =>
      obtain ⟨reason, rfl⟩ := refused_of_precondition_error hpre
      exact ⟨reason, step_reference_error hp hq (checkReference_error_of_precondition r hpre)⟩
  · intro hpre hend hcanonical
    have hall : allCanonical s.cfg.vaBits r = true := by
      obtain ⟨⟨-, -, hbits⟩, -⟩ := (precondition_ok_iff s).1 hpre
      rw [hbits]
      exact List.all_eq_true.2 fun k hk => hcanonical k (List.mem_range.1 hk)
    exact step_reference_ok hp hq
      ((checkReference_ok_iff s r).2 ⟨hpre, decide_eq_false (Nat.not_le_of_lt hend), hall⟩)

/-! ### `CheckEntry` (R66) -/

theorem reservedSet_iff (c : Config) (l : Level) (e : Word) : reservedSet c l e = true ↔
    (l = .pml4 ∧ e.extractLsb' 7 2 ≠ 0#2) ∨
    (l = .pdp ∧ e.getLsbD 7 = true ∧ c.page1gb = false) ∨
    (l = .pdp ∧ e.getLsbD 7 = true ∧ e.extractLsb' 13 17 ≠ 0#17) ∨
    (l = .pd ∧ e.getLsbD 7 = true ∧ e.extractLsb' 13 8 ≠ 0#8) := by
  cases l <;> simp [reservedSet, and_or_left]

/-- The checks of an entry in their order: P, the reserved bits, the base. -/
theorem checkEntry_eq (c : Config) (e : Word) (l : Level) (va : VAddr) (acc : Acc) : checkEntry c e l va acc =
    if e.getLsbD 0 = true then
      if reservedSet c l e = true then .error (.refused (.reservedBit l))
      else if beyondPabits c (e.extractLsb' 0 52) = true then .error (.refused (.baseBeyondPabits l))
      else .ok ()
    else .error (.fault (.pageNotPresent va acc l)) := by
  unfold checkEntry guardStop
  cases e.getLsbD 0 <;> cases reservedSet c l e <;> rfl

/-- The step that reads the entry `e` checks it and uses it. -/
theorem step_fetched_entry {s : State} {w : Walk} {l : Level} {b : PAddr} {e : Word} (hp : s.phase = .walking w)
    (hstage : w.stage = .table l b) (hfetch : fetchWord w s = .ok e) :
    step s = outcomeOf ((checkEntry s.cfg e l w.va w.ref.acc).map fun _ =>
      afterEntry w l b (e.getLsbD 1) (e.getLsbD 2) (e.getLsbD 63) (nextStage l e) s) := by
  rw [fetchWord_table hstage] at hfetch
  rw [step_table_eq hp hstage, readChecked, hfetch]
  simp only [bind, Except.bind]
  cases checkEntry s.cfg e l w.va w.ref.acc <;> rfl

/-- Settles O19: the three tests of `checkEntry` in their order. -/
theorem entryCheck : Obligations.EntryCheck := by
  intro s w l b e hp hstage hfetch
  rw [step_fetched_entry hp hstage hfetch, checkEntry_eq]
  simp only [← not_or, ← reservedSet_iff]
  refine ⟨fun habsent => ?_, fun hpresent => ⟨fun hreserved => ?_, fun hclear => ⟨fun hbeyond => ?_, fun hbelow => ?_⟩⟩⟩
  · rw [if_neg (Bool.eq_false_iff.1 habsent)]
    rfl
  · rw [if_pos hpresent, if_pos hreserved]
    rfl
  · rw [if_pos hpresent, if_neg hclear, if_pos ((beyondPabits_eq_true_iff _ _).2 hbeyond)]
    rfl
  · rw [if_pos hpresent, if_neg hclear, if_neg (Bool.eq_false_iff.1 ((beyondPabits_eq_false_iff _ _).2 hbelow))]
    exact ⟨_, rfl, rfl⟩

end Sys2Proof.Machine
end

section
/-! PROOFS. A Translate that succeeds (R60): the entries it reads and checks, the ending it takes, and what follows of its
result, its reads and its steps. -/

namespace Sys2Proof.Machine

variable {s : State} {va : VAddr} {acc : Acc}

/-! ### Entries read and checked -/

/-- `CheckEntry` lets pass exactly the sound entries (R66). -/
theorem checkEntry_ok_iff (c : Config) (e : Word) (l : Level) (va : VAddr) (acc : Acc) :
    checkEntry c e l va acc = .ok () ↔ entrySound c l e := by
  have hclear : reservedSet c l e = false ↔ (l = .pml4 → e.extractLsb' 7 2 = 0#2) ∧
      (l = .pdp → e.getLsbD 7 = true → c.page1gb = true ∧ e.extractLsb' 13 17 = 0#17) ∧
      (l = .pd → e.getLsbD 7 = true → e.extractLsb' 13 8 = 0#8) := by
    cases l <;> simp [reservedSet, imp_iff_not_or]
  simp only [checkEntry, bind_unit_ok_iff, guardStop_ok_iff, Bool.not_eq_false', hclear, beyondPabits_eq_false_iff, entrySound,
    and_assoc]

theorem readChecked_ok_iff (s : State) (va : VAddr) (acc : Acc) (l : Level) (base : PAddr) (e : Word) :
    readChecked s va acc l base = .ok e ↔
      readEntry s (entryAddr base (tableIndex l va)) = .ok e ∧ entrySound s.cfg l e := by
  rw [readChecked, bind_ok_iff]
  simp only [bind_unit_ok_iff, checkEntry_ok_iff]
  constructor
  · rintro ⟨e', hread, hsound, hsame⟩
    cases hsame
    exact ⟨hread, hsound⟩
  · rintro ⟨hread, hsound⟩
    exact ⟨e, hread, hsound, rfl⟩

/-- Another memory with the same word at the entry's address gives the same entry. -/
theorem readChecked_setMem {l : Level} {base : PAddr} {e : Word} {m : Memory} (h : readChecked s va acc l base = .ok e)
    (hm : word64 m (entryAddr base (tableIndex l va)).toNat = word64 s.mem (entryAddr base (tableIndex l va)).toNat) :
    readChecked (s.setMem m) va acc l base = .ok e := by
  rw [readChecked_ok_iff, readEntry_ok_iff] at h ⊢
  rwa [← hm] at h

/-- PABITS >= 32 is above the low bits of every table and page (R3). -/
theorem two_pow_paBits (c : Config) {k : Nat} (hk : k ≤ 30) : 2 ^ c.paBits = 2 ^ (c.paBits - k) * 2 ^ k := by
  rw [← Nat.pow_add]
  unfold Config.paBits
  congr 1
  omega

/-- Every entry of an aligned table below 2^PABITS lies below it too (R27). -/
theorem entryAddr_below {c : Config} {base : PAddr} (i : BitVec 9) (haligned : base.extractLsb' 0 12 = 0#12)
    (h : beyondPabits c base = false) : (entryAddr base i).toNat + 7 < 2 ^ c.paBits := by
  have hlow : base.toNat % 2 ^ 12 = 0 := by simpa using congrArg BitVec.toNat haligned
  have hpow := two_pow_paBits c (k := 12) (by decide)
  have hi := i.isLt
  rw [beyondPabits_eq_false_iff] at h
  rw [entryAddr_toNat i haligned]
  omega

/-- In a run that has stored nothing, a sound entry of a table below 2^PABITS is read and passes its check. -/
theorem readChecked_of_sound {l : Level} {base : PAddr} {e : Word} (hchanged : s.changed = [])
    (haligned : base.extractLsb' 0 12 = 0#12) (hbase : beyondPabits s.cfg base = false)
    (he : e = word64 s.mem (entryAddr base (tableIndex l va)).toNat) (hsound : entrySound s.cfg l e) :
    readChecked s va acc l base = .ok e := by
  rw [readChecked_ok_iff, readEntry_ok_iff, hchanged]
  exact ⟨⟨entryAddr_below _ haligned hbase, rfl, he⟩, hsound⟩

/-- A sound entry has no base bit at or above PABITS, whatever its base field (R21, R66). -/
theorem entrySound_below {c : Config} {l : Level} {e : Word} (h : entrySound c l e) :
    beyondPabits c (e.extractLsb' 0 52) = false := by
  obtain ⟨-, -, -, -, hlow⟩ := h
  exact (beyondPabits_eq_false_iff _ _).2 hlow

theorem tableBase_below {c : Config} {l : Level} {e : Word} (h : entrySound c l e) : beyondPabits c (tableBase e) = false :=
  (beyond_base12 c e).trans (entrySound_below h)

/-- A page below 2^PABITS lies below it at every offset (R21, R67). -/
theorem page_below {c : Config} {n k : Nat} {field : BitVec n} {offset : BitVec k} {base pa : PAddr} (hk : k ≤ 30)
    (hbase : base.toNat = field.toNat * 2 ^ k) (hpa : pa.toNat = field.toNat * 2 ^ k + offset.toNat)
    (h : beyondPabits c base = false) : beyondPabits c pa = false := by
  rw [beyondPabits_eq_false_iff, hbase, two_pow_paBits c hk] at h
  rw [beyondPabits_eq_false_iff, hpa, two_pow_paBits c hk]
  have hfield : field.toNat + 1 ≤ 2 ^ (c.paBits - k) := Nat.lt_of_mul_lt_mul_right h
  calc field.toNat * 2 ^ k + offset.toNat
    _ < (field.toNat + 1) * 2 ^ k := by
      rw [Nat.succ_mul]
      exact Nat.add_lt_add_left offset.isLt _
    _ ≤ 2 ^ (c.paBits - k) * 2 ^ k := Nat.mul_le_mul_right _ hfield

/-! ### The successful Translates -/

theorem leaf_ok_iff (s : State) (va : VAddr) (acc : Acc) (level : Level) (es : List Word) (t u : Translation) :
    leaf s va acc level es t = .ok u ↔
      permits s.cfg.permCheck acc (attrOf es) = true ∧ beyondPabits s.cfg t.pa = false ∧ u = t := by
  simp only [leaf, bind_unit_ok_iff, guardStop_ok_iff, Bool.not_eq_false', pure, Except.pure, Except.ok.injEq, eq_comm (a := t)]

/-- The page size, result and reads of a Translate whose entries are read, checked and permitted (R60): one rule for each
ending. -/
inductive TablesGive (s : State) (va : VAddr) (acc : Acc) : Translation → Prop where
  | page1G {e4 e3 : Word} (h4 : readChecked s va acc .pml4 (pml4Base s.cr3) = .ok e4)
      (h3 : readChecked s va acc .pdp (tableBase e4) = .ok e3) (ps3 : e3.getLsbD 7 = true)
      (hperm : permits s.cfg.permCheck acc (attrOf [e4, e3]) = true)
      (hpa : beyondPabits s.cfg (e3.extractLsb' 30 22 ++ va.extractLsb' 0 30 : PAddr) = false) :
      TablesGive s va acc {
        pa := e3.extractLsb' 30 22 ++ va.extractLsb' 0 30
        page := .page1G
        reads := [entryAddr (pml4Base s.cr3) (tableIndex .pml4 va), entryAddr (tableBase e4) (tableIndex .pdp va)] }
  | page2M {e4 e3 e2 : Word} (h4 : readChecked s va acc .pml4 (pml4Base s.cr3) = .ok e4)
      (h3 : readChecked s va acc .pdp (tableBase e4) = .ok e3) (ps3 : e3.getLsbD 7 = false)
      (h2 : readChecked s va acc .pd (tableBase e3) = .ok e2) (ps2 : e2.getLsbD 7 = true)
      (hperm : permits s.cfg.permCheck acc (attrOf [e4, e3, e2]) = true)
      (hpa : beyondPabits s.cfg (e2.extractLsb' 21 31 ++ va.extractLsb' 0 21 : PAddr) = false) :
      TablesGive s va acc {
        pa := e2.extractLsb' 21 31 ++ va.extractLsb' 0 21
        page := .page2M
        reads := [entryAddr (pml4Base s.cr3) (tableIndex .pml4 va), entryAddr (tableBase e4) (tableIndex .pdp va),
          entryAddr (tableBase e3) (tableIndex .pd va)] }
  | page4K {e4 e3 e2 e1 : Word} (h4 : readChecked s va acc .pml4 (pml4Base s.cr3) = .ok e4)
      (h3 : readChecked s va acc .pdp (tableBase e4) = .ok e3) (ps3 : e3.getLsbD 7 = false)
      (h2 : readChecked s va acc .pd (tableBase e3) = .ok e2) (ps2 : e2.getLsbD 7 = false)
      (h1 : readChecked s va acc .pt (tableBase e2) = .ok e1)
      (hperm : permits s.cfg.permCheck acc (attrOf [e4, e3, e2, e1]) = true)
      (hpa : beyondPabits s.cfg (e1.extractLsb' 12 40 ++ va.extractLsb' 0 12 : PAddr) = false) :
      TablesGive s va acc {
        pa := e1.extractLsb' 12 40 ++ va.extractLsb' 0 12
        page := .page4K
        reads := [entryAddr (pml4Base s.cr3) (tableIndex .pml4 va), entryAddr (tableBase e4) (tableIndex .pdp va),
          entryAddr (tableBase e3) (tableIndex .pd va), entryAddr (tableBase e2) (tableIndex .pt va)] }

/-- When a Translate succeeds, and with what: its two checks, then the tables (R60). -/
theorem translateVa_ok_iff (s : State) (va : VAddr) (acc : Acc) (t : Translation) : translateVa s va acc = .ok t ↔
    precondition s = .ok () ∧ canonical s.cfg.vaBits va = true ∧ TablesGive s va acc t := by
  unfold translateVa
  simp only [bind_unit_ok_iff, guardStop_ok_iff, Bool.not_eq_false', ← readChecked_bind]
  refine and_congr_right fun _ => and_congr_right fun _ => ⟨fun h => ?_, fun h => ?_⟩
  · obtain ⟨e4, h4, h⟩ := (bind_ok_iff _ _ _).1 h
    obtain ⟨e3, h3, h⟩ := (bind_ok_iff _ _ _).1 h
    split at h
    next ps3 =>
      obtain ⟨hperm, hpa, rfl⟩ := (leaf_ok_iff ..).1 h
      exact .page1G h4 h3 ps3 hperm hpa
    next ps3 =>
      obtain ⟨e2, h2, h⟩ := (bind_ok_iff _ _ _).1 h
      split at h
      next ps2 =>
        obtain ⟨hperm, hpa, rfl⟩ := (leaf_ok_iff ..).1 h
        exact .page2M h4 h3 (Bool.eq_false_iff.2 ps3) h2 ps2 hperm hpa
      next ps2 =>
        obtain ⟨e1, h1, h⟩ := (bind_ok_iff _ _ _).1 h
        obtain ⟨hperm, hpa, rfl⟩ := (leaf_ok_iff ..).1 h
        exact .page4K h4 h3 (Bool.eq_false_iff.2 ps3) h2 (Bool.eq_false_iff.2 ps2) h1 hperm hpa
  · cases h with
    | page1G h4 h3 ps3 hperm hpa =>
      refine (bind_ok_iff _ _ _).2 ⟨_, h4, (bind_ok_iff _ _ _).2 ⟨_, h3, ?_⟩⟩
      rw [if_pos ps3]
      exact (leaf_ok_iff ..).2 ⟨hperm, hpa, rfl⟩
    | page2M h4 h3 ps3 h2 ps2 hperm hpa =>
      refine (bind_ok_iff _ _ _).2 ⟨_, h4, (bind_ok_iff _ _ _).2 ⟨_, h3, ?_⟩⟩
      rw [if_neg (Bool.eq_false_iff.1 ps3)]
      refine (bind_ok_iff _ _ _).2 ⟨_, h2, ?_⟩
      rw [if_pos ps2]
      exact (leaf_ok_iff ..).2 ⟨hperm, hpa, rfl⟩
    | page4K h4 h3 ps3 h2 ps2 h1 hperm hpa =>
      refine (bind_ok_iff _ _ _).2 ⟨_, h4, (bind_ok_iff _ _ _).2 ⟨_, h3, ?_⟩⟩
      rw [if_neg (Bool.eq_false_iff.1 ps3)]
      refine (bind_ok_iff _ _ _).2 ⟨_, h2, ?_⟩
      rw [if_neg (Bool.eq_false_iff.1 ps2)]
      exact (bind_ok_iff _ _ _).2 ⟨_, h1, (leaf_ok_iff ..).2 ⟨hperm, hpa, rfl⟩⟩

/-- Settles O49: each entry is read at an address of `reads`, where both memories hold one word. -/
theorem translationDependsOnItsEntries : Obligations.TranslationDependsOnItsEntries := by
  intro s m va acc t h hm
  obtain ⟨hpre, hcanonical, hgive⟩ := (translateVa_ok_iff s va acc t).1 h
  refine (translateVa_ok_iff (s.setMem m) va acc t).2 ⟨hpre, hcanonical, ?_⟩
  cases hgive with
  | page1G h4 h3 ps3 hperm hpa =>
    exact .page1G (readChecked_setMem h4 (hm _ (by simp))) (readChecked_setMem h3 (hm _ (by simp))) ps3 hperm hpa
  | page2M h4 h3 ps3 h2 ps2 hperm hpa =>
    exact .page2M (readChecked_setMem h4 (hm _ (by simp))) (readChecked_setMem h3 (hm _ (by simp))) ps3
      (readChecked_setMem h2 (hm _ (by simp))) ps2 hperm hpa
  | page4K h4 h3 ps3 h2 ps2 h1 hperm hpa =>
    exact .page4K (readChecked_setMem h4 (hm _ (by simp))) (readChecked_setMem h3 (hm _ (by simp))) ps3
      (readChecked_setMem h2 (hm _ (by simp))) ps2 (readChecked_setMem h1 (hm _ (by simp))) hperm hpa

/-- Settles O50: by the three endings; PAGE1GB is part of the check of a PDPE with PS. -/
theorem translationShape : Obligations.TranslationShape := by
  intro s va acc t h
  obtain ⟨hpre, hcanonical, hgive⟩ := (translateVa_ok_iff s va acc t).1 h
  obtain ⟨⟨-, -, hbits⟩, -⟩ := (precondition_ok_iff s).1 hpre
  rw [hbits] at hcanonical
  cases hgive with
  | page1G h4 h3 ps3 hperm hpa =>
    obtain ⟨-, -, -, hpdp, -⟩ := (readChecked_ok_iff ..).1 h3
    exact ⟨(beyondPabits_eq_false_iff _ _).1 hpa, hcanonical, rfl, BitVec.extractLsb'_append_eq_right, (hpdp rfl ps3).1⟩
  | page2M h4 h3 ps3 h2 ps2 hperm hpa =>
    exact ⟨(beyondPabits_eq_false_iff _ _).1 hpa, hcanonical, rfl, BitVec.extractLsb'_append_eq_right⟩
  | page4K h4 h3 ps3 h2 ps2 h1 hperm hpa =>
    exact ⟨(beyondPabits_eq_false_iff _ _).1 hpa, hcanonical, rfl, BitVec.extractLsb'_append_eq_right⟩

/-- Settles O57: each table lies where the entry before it says, below 2^PABITS, and so does the page. -/
theorem translateFollowsTheTables : Obligations.TranslateFollowsTheTables := by
  intro s va acc e4 e3 hpre hcanonical hchanged he4 he3 hsound4 hsound3
  obtain ⟨⟨-, -, hbits⟩, -, hbase⟩ := (precondition_ok_iff s).1 hpre
  rw [← hbits] at hcanonical
  have h4 : readChecked s va acc .pml4 (pml4Base s.cr3) = .ok e4 :=
    readChecked_of_sound hchanged (low12_append _) hbase he4 hsound4
  have h3 : readChecked s va acc .pdp (tableBase e4) = .ok e3 :=
    readChecked_of_sound hchanged (low12_append _) (tableBase_below hsound4) he3 hsound3
  refine ⟨fun ps3 hperm => ?_, fun ps3 e2 he2 hsound2 => ?_⟩
  · exact (translateVa_ok_iff ..).2 ⟨hpre, hcanonical, .page1G h4 h3 ps3 hperm
      (page_below (by decide) (toNat_append_zero ..) (toNat_append_eq ..)
        ((beyond_base30 _ _).trans (entrySound_below hsound3)))⟩
  · have h2 : readChecked s va acc .pd (tableBase e3) = .ok e2 :=
      readChecked_of_sound hchanged (low12_append _) (tableBase_below hsound3) he2 hsound2
    refine ⟨fun ps2 hperm => ?_, fun ps2 e1 he1 hsound1 hperm => ?_⟩
    · exact (translateVa_ok_iff ..).2 ⟨hpre, hcanonical, .page2M h4 h3 ps3 h2 ps2 hperm
        (page_below (by decide) (toNat_append_zero ..) (toNat_append_eq ..)
          ((beyond_base21 _ _).trans (entrySound_below hsound2)))⟩
    · have h1 : readChecked s va acc .pt (tableBase e2) = .ok e1 :=
        readChecked_of_sound hchanged (low12_append _) (tableBase_below hsound2) he1 hsound1
      exact (translateVa_ok_iff ..).2 ⟨hpre, hcanonical, .page4K h4 h3 ps3 h2 ps2 h1 hperm
        (page_below (by decide) (toNat_append_zero ..) (toNat_append_eq ..)
          ((beyond_base12 _ _).trans (entrySound_below hsound1)))⟩

/-! ### The steps of a Translate request -/

/-- A Translate's checks of its address are those of a reference of one byte, which does not wrap (R60). -/
theorem checkReference_translate (s : State) (va : VAddr) (acc : Acc) :
    checkReference s { va := va, acc := acc, kind := .translate } = (do
      precondition s
      guardStop (!canonical s.cfg.vaBits va) (.fault (gpOrSs va acc))) := by
  have hwraps : Reference.wraps { va := va, acc := acc, kind := .translate } = false :=
    decide_eq_false (Nat.not_le_of_lt va.isLt)
  rw [checkReference, hwraps, allCanonical_one _ _ rfl, byteVa_zero]
  rfl

theorem translateVa_error_of_check {s : State} {va : VAddr} {acc : Acc} {e : Stop}
    (h : checkReference s { va := va, acc := acc, kind := .translate } = .error e) : translateVa s va acc = .error e := by
  rw [checkReference_translate] at h
  rw [translateVa, ← bind_assoc, h]
  rfl

/-- From the state that awaits its answer, a Translate is answered in one step. -/
theorem step_afterTranslate {s : State} {r : Reference} (hkind : r.kind = .translate) (t : Translation) :
    step (afterTranslate s (firstByte r) t) =
      .next (((s.setStarted.noteRead t.reads).setPhase .idle).respond [.translated t.pa]) := by
  have hlast : afterByte (firstByte r) t.pa = .finishing r [t.pa] := by
    simp only [afterByte, firstByte, Reference.size, hkind]
    rfl
  rw [afterTranslate, hlast, step_finishing rfl]
  simp only [answer, hkind]
  rfl

/-- The Translate of a reference of one byte that has passed its checks. -/
theorem steps_firstByte {s : State} {r : Reference} (hkind : r.kind = .translate) (hcheck : checkReference s r = .ok ()) :
    ∃ k, steps k (s.setPhase (.walking (firstByte r))) =
        outcomeOf ((translateVa s r.va r.acc).map (afterTranslate (s.setPhase (.walking (firstByte r))) (firstByte r))) ∧
      k ≤ 6 ∧ ∀ t, translateVa s r.va r.acc = .ok t → k = t.reads.length + 2 := by
  obtain ⟨hpre, -, hall⟩ := (checkReference_ok_iff s r).1 hcheck
  have hsize : 0 < r.size := by
    rw [Reference.size, hkind]
    exact Nat.zero_lt_one
  have hsteps := steps_translateVa (s := s.setPhase (.walking (firstByte r))) (w := firstByte r) rfl rfl hpre
    (canonical_of_allCanonical hall hsize)
  have hva : (firstByte r).va = r.va := byteVa_zero r
  rwa [hva] at hsteps

/-- Settles O51: one step for the request, `steps_firstByte` for the walk, one step for the answer. -/
theorem machinePerformsTranslate : Obligations.MachinePerformsTranslate := by
  intro s va acc rest hp hq
  cases hcheck : checkReference s { va := va, acc := acc, kind := .translate } with
  | error e =>
    rw [translateVa_error_of_check hcheck]
    refine ⟨fun t ht => (by cases ht), fun e' he => ?_⟩
    cases he
    exact ⟨1, by decide, steps_stop (step_reference_error hp hq hcheck)⟩
  | ok _ =>
    have hstart : ∀ k, steps (k + 1) s = steps k ((s.setRequests rest).setPhase
        (.walking (firstByte { va := va, acc := acc, kind := .translate }))) :=
      steps_next (step_reference_ok hp hq hcheck)
    obtain ⟨k, hk, hbound, hcount⟩ := steps_firstByte (s := s.setRequests rest) rfl hcheck
    refine ⟨fun t ht => ?_, fun e he => ⟨k + 1, by omega, ?_⟩⟩
    · have hwalk : translateVa (s.setRequests rest) va acc = .ok t := ht
      rw [hwalk] at hk
      have hall : t.reads.length + 4 = k + 1 + 1 := by rw [hcount t hwalk]
      rw [hall, hstart, steps_add 1 hk, steps_one, step_afterTranslate rfl, ← hp]
      rfl
    · have hwalk : translateVa (s.setRequests rest) va acc = .error e := he
      rw [hwalk] at hk
      exact (hstart k).trans hk

end Sys2Proof.Machine
end

section
/-! PROOFS. A machine without 1-Gbyte pages (R76). -/

namespace Sys2Proof.Machine

/-- Settles O30: without PAGE1GB, bit 7 is one of the reserved bits that `CheckEntry` refuses in a present PDPE. -/
theorem oneGbytePdpeRefusedWithoutSupport : Obligations.OneGbytePdpeRefusedWithoutSupport := by
  intro s w b e hpage hp hstage hfetch hpresent hps
  obtain ⟨-, hcheck⟩ := entryCheck s w .pdp b e hp hstage hfetch
  obtain ⟨hrefused, -⟩ := hcheck hpresent
  exact hrefused (.inr (.inl ⟨rfl, hps, hpage⟩))

end Sys2Proof.Machine
end

section
/-! PROOFS. The legacy-mode PAE 2-Mbyte PDE (R81 to R84): its word and row as the long-mode PDE's, and the refusals outside long
mode. -/

namespace Sys2Proof.Machine

/-! ### The word (R81, R82) -/

/-- The two layouts put the fields they share in the same bits, with zeros where only the long-mode one has a field (R82). -/
theorem encode_legacyAsLongMode (f : Pde2MLegacy) : encode (.pde2M (legacyAsLongMode f)) = encode (.pde2MLegacy f) := rfl

theorem decode_legacyPd_iff (w : Word) (f : Pde2MLegacy) :
    decodeWord .legacyPd w = .ok (.pde2MLegacy f) ↔ encode (.pde2MLegacy f) = w :=
  (decodeWord_slot_iff (.pde2MLegacy f) w).trans (and_iff_right rfl)

theorem decode_pde2M_iff (w : Word) (f : Pde2M) : decodeWord .pd w = .ok (.pde2M f) ↔ encode (.pde2M f) = w :=
  (decodeWord_slot_iff (.pde2M f) w).trans (and_iff_right rfl)

/-- Settles O7: both rows are read in the same word, whose bits 62:52 are the long-mode row's zero field; R83 takes the page from
the bits that R81 names as the base. -/
theorem legacyPdeDiffersInBits62To52 : Obligations.LegacyPdeDiffersInBits62To52 := by
  intro w
  constructor
  · intro f
    rw [decode_legacyPd_iff, decode_pde2M_iff, encode_legacyAsLongMode]
    refine ⟨fun hword => ⟨?_, hword⟩, fun ⟨_, hword⟩ => hword⟩
    obtain ⟨-, hfields⟩ := (encode_eq_iff_fits (.pde2M (legacyAsLongMode f)) w).1 hword
    exact congrArg Pde2M.avail hfields
  · intro f va hdecode
    obtain ⟨-, rfl⟩ := (encode_eq_iff_fits (.pde2MLegacy f) w).1 ((decode_legacyPd_iff w f).1 hdecode)
    rfl

/-! ### The row in long mode (R82) -/

theorem exec_pde2MLegacy_longMode {s : State} (f : Pde2MLegacy) (hlong : s.longMode = true) :
    exec (.pde2MLegacy f) s = exec (.pde2M (legacyAsLongMode f)) s :=
  if_pos hlong

/-- Settles O24: the row is that of the long-mode PDE, which completes by O22. -/
theorem legacyRowIsThePdeOfTheSameBits : Obligations.LegacyRowIsThePdeOfTheSameBits := by
  intro f s hlong
  refine ⟨(encode_legacyAsLongMode f).symm, exec_pde2MLegacy_longMode f hlong, fun w b hp hstage hbelow => ?_⟩
  obtain ⟨-, hpde, -⟩ := finalRowsGiveThePageBase s w b hp
  exact (exec_pde2MLegacy_longMode f hlong).trans (hpde (legacyAsLongMode f) hstage hbelow)

/-! ### Outside long mode (R61, R84) -/

theorem exec_pde2MLegacy_not_longMode {s : State} (f : Pde2MLegacy) (hlong : s.longMode = false) :
    exec (.pde2MLegacy f) s = .refused .legacyMode :=
  if_neg (Bool.eq_false_iff.1 hlong)

/-- Long mode is the first test of the precondition (R61). -/
theorem precondition_not_longMode {s : State} (hlong : s.longMode = false) :
    precondition s = .error (.refused .notLongMode) := by
  rw [precondition, checkMode, hlong]
  rfl

/-- Settles O25: the legacy row tests the mode alone, and a reference tests it first. -/
theorem legacyModeNotExecuted : Obligations.LegacyModeNotExecuted := fun _ hlong =>
  ⟨fun f => exec_pde2MLegacy_not_longMode f hlong, fun r _ hp hq =>
    step_reference_error hp hq (checkReference_error_of_precondition r (precondition_not_longMode hlong))⟩

end Sys2Proof.Machine
end

section
/-! PROOFS. The effective attributes of a walk and the permission check on them (R53, R90), and the fault of a walk that it denies. -/

namespace Sys2Proof.Machine

variable {s : State} {w : Walk}

/-! ### `Attr` (R90) -/

theorem foldl_meet_eq_attrOf (es : List Word) :
    es.foldl (fun t e => meet t (e.getLsbD 1) (e.getLsbD 2) (e.getLsbD 63)) noEntries = attrOf es := by
  induction es using List.reverseRecOn with
  | nil => rfl
  | append_singleton es e ih => rw [List.foldl_concat, ih, meet_attrOf]

/-- Settles O28: the walk joins one entry at a time to the attributes of those before it. -/
theorem attributesAreAccumulated : Obligations.AttributesAreAccumulated := fun es =>
  ⟨foldl_meet_eq_attrOf es, List.all_eq_true, List.all_eq_true, List.any_eq_true⟩

/-! ### `PermCheck` (R90) -/

/-- The 12 descriptors. -/
def allAccs : List Acc :=
  [.read, .write, .fetch].flatMap fun kind => [false, true].flatMap fun stack => [false, true].map fun user =>
    { kind, stack, user }

/-- The 8 attribute values. -/
def allAttrs : List Attr :=
  [false, true].flatMap fun writable => [false, true].flatMap fun user => [false, true].map fun noexec =>
    { writable, user, noexec }

/-- The pairs to list in `PermCheck.denies` for the check `f`. -/
def deniedPairs (f : Acc → Attr → Bool) : List (Acc × Attr) :=
  (allAccs.product allAttrs).filter fun p => !f p.1 p.2

theorem bool_mem_false_true (b : Bool) : b ∈ [false, true] := by
  cases b <;> simp

theorem mem_allAccs (acc : Acc) : acc ∈ allAccs := by
  have hkind : acc.kind ∈ [.read, .write, .fetch] := by cases acc.kind <;> simp
  simp only [allAccs, List.mem_flatMap, List.mem_map]
  exact ⟨acc.kind, hkind, acc.stack, bool_mem_false_true _, acc.user, bool_mem_false_true _, rfl⟩

theorem mem_allAttrs (t : Attr) : t ∈ allAttrs := by
  simp only [allAttrs, List.mem_flatMap, List.mem_map]
  exact ⟨t.writable, bool_mem_false_true _, t.user, bool_mem_false_true _, t.noexec, bool_mem_false_true _, rfl⟩

theorem mem_deniedPairs_iff (f : Acc → Attr → Bool) (acc : Acc) (t : Attr) :
    (acc, t) ∈ deniedPairs f ↔ f acc t = false := by
  have hall : (acc, t) ∈ allAccs.product allAttrs := List.mem_product.2 ⟨mem_allAccs acc, mem_allAttrs t⟩
  rw [deniedPairs, List.mem_filter, and_iff_right hall, Bool.not_eq_true']

theorem permits_deniedPairs (f : Acc → Attr → Bool) (acc : Acc) (t : Attr) :
    permits (.denies (deniedPairs f)) acc t = f acc t := by
  rw [Bool.eq_iff_iff, permits, Bool.not_eq_true', ← Bool.not_eq_true, List.contains_iff_mem, mem_deniedPairs_iff,
    Bool.not_eq_false]

theorem permits_strict_iff (acc : Acc) (t : Attr) : permits .strict acc t = true ↔
    (acc.kind = .write → t.writable = true) ∧ (acc.user = true → t.user = true) ∧
      (acc.kind = .fetch → t.noexec = false) := by
  simp only [permits, strictAllows, Bool.and_eq_true, Bool.or_eq_true, bne_iff_ne, Bool.not_eq_true', ← Bool.not_eq_true,
    ← imp_iff_not_or, and_assoc]

/-- Settles O29: a check is the list of the pairs that it denies, for there are finitely many pairs. -/
theorem permCheckIsOpen : Obligations.PermCheckIsOpen :=
  ⟨fun f => ⟨.denies (deniedPairs f), permits_deniedPairs f⟩, permits_strict_iff⟩

/-! ### A denied access (R90) -/

theorem endByte_denied {level : Level} {pa : PAddr} (hdenied : permits s.cfg.permCheck w.ref.acc w.attr = false) :
    endByte level w pa s = .fault (.pageDenied w.va w.ref.acc level) :=
  if_neg (Bool.eq_false_iff.1 hdenied)

/-- Settles O27: each VA row is `endByte` at the level of its final entry. -/
theorem deniedAccessRaisesPageFault : Obligations.DeniedAccessRaisesPageFault := fun _ _ hp hdenied =>
  ⟨fun f _ hstage => (exec_va4K hp f hstage).trans (endByte_denied hdenied),
    fun f _ hstage => (exec_va2M hp f hstage).trans (endByte_denied hdenied),
    fun f _ hstage => (exec_va1G hp f hstage).trans (endByte_denied hdenied)⟩

end Sys2Proof.Machine
end

section
/-! PROOFS. `ActivateLongMode` (R85, R104). -/

namespace Sys2Proof.Machine

/-- Settles O35: without PAE by O43; with it, the other two tests in their order. -/
theorem activationNeedsPae : Obligations.ActivationNeedsPae := by
  intro s rest hp hq
  obtain ⟨-, hfault⟩ := onlyActivationSetsLongMode
  have hstep : step s = activateLongMode (s.setRequests rest) := step_request hp hq
  refine ⟨hfault s rest hp hq, ?_⟩
  rw [hstep]
  refine ⟨fun hpae hlong => ?_, fun hpae hlong hstarted => ?_, fun hpae hlong hstarted => ?_⟩
  · simp [activateLongMode, hpae, hlong]
  · simp [activateLongMode, hpae, hlong, hstarted]
  · exact (activateLongMode_next_iff _ _).2 ⟨hpae, hlong, hstarted, rfl⟩

end Sys2Proof.Machine
end

section
/-! PROOFS. The record of a run (R104): every step keeps it, a launch state meets it, and so the entries that a run has read keep
their launch values. The record speaks of memory, `changed` and `entriesRead` only, so after an update of other fields
`⟨hs.listed, hs.unread⟩` is the record again. -/

namespace Sys2Proof.Machine

variable {launch : Memory} {s t : State}

/-! ### Operations that keep the record -/

/-- A store that changes a byte lists it, and changes none of an entry that the run has read. -/
theorem State.RunRecord.storeByte {pa : PAddr} {b : Byte} (hs : s.RunRecord launch) (h : storeByte pa b s = .ok t) :
    t.RunRecord launch where
  listed := by
    rcases (storeByte_ok_iff pa b s t).1 h with ⟨-, rfl⟩ | ⟨-, -, rfl⟩
    · exact hs.listed
    · intro a hne
      rw [State.noteChanged_changed]
      by_cases ha : a = pa.toNat
      · exact ⟨pa, List.mem_append_right _ (List.mem_singleton_self pa), ha.symm⟩
      · rw [State.noteChanged_mem, State.setMem_mem, Memory.read_write_other _ _ ha] at hne
        obtain ⟨c, hc, hca⟩ := hs.listed a hne
        exact ⟨c, List.mem_append_left _ hc, hca⟩
  unread := storeBytes_stable [(pa, b)] (storeBytes_cons_ok_iff.2 ⟨t, h, rfl⟩) hs.unread

theorem State.RunRecord.storeBytes {l : List (PAddr × Byte)} (hs : s.RunRecord launch) (h : storeBytes l s = .ok t) :
    t.RunRecord launch := by
  induction l generalizing s with
  | nil => cases h; exact hs
  | cons c l ih =>
    obtain ⟨u, hu, ht⟩ := storeBytes_cons_ok_iff.1 h
    exact ih (hs.storeByte hu) ht

/-- The entry that the walk has just read holds no byte that the run has changed. -/
theorem State.RunRecord.afterEntry {w : Walk} {l : Level} {b : PAddr} {word : Word} {rw us nx : Bool} {next : Stage}
    (hs : s.RunRecord launch) (hstage : w.stage = .table l b) (hf : fetchWord w s = .ok word) :
    (afterEntry w l b rw us nx next s).RunRecord launch where
  listed := hs.listed
  unread := List.forall_mem_append.2 ⟨hs.unread, List.forall_mem_singleton.2 (fetched_entry_unchanged hstage hf)⟩

theorem exec_keeps_runRecord {w : Walk} {word : Word} {i : Instr} (hs : s.RunRecord launch) (hp : s.phase = .walking w)
    (hf : fetchWord w s = .ok word) (h : exec i s = .next t) : t.RunRecord launch := by
  obtain ⟨w', hp', hcase⟩ := exec_next_cases h
  obtain rfl : w' = w := Phase.walking.inj (hp'.symm.trans hp)
  rcases hcase with ⟨f, -, -, -, -, -, rfl⟩ | ⟨l, b, rw, us, nx, next, hstage, -, rfl⟩ | ⟨pa, -, -, -, rfl⟩
  · exact ⟨hs.listed, hs.unread⟩
  · exact hs.afterEntry hstage hf
  · exact ⟨hs.listed, hs.unread⟩

/-- Of the requests only a PhysWrite touches what the record speaks of. -/
theorem takeRequest_keeps_runRecord (hs : s.RunRecord launch) (h : takeRequest s = .next t) : t.RunRecord launch := by
  rcases takeRequest_next_cases h with ⟨-, rfl⟩ | ⟨r, rest, -, -, rfl⟩ | ⟨rest, -, -, -, -, rfl⟩ | ⟨rest, -, -, rfl⟩ |
    ⟨v, rest, -, -, -, rfl⟩ | ⟨pa, n, rest, -, -, rfl⟩ | ⟨pa, bytes, rest, u, -, -, hstore, rfl⟩
  case inr.inr.inr.inr.inr.inr =>
    have htaken : (s.setRequests rest).RunRecord launch := ⟨hs.listed, hs.unread⟩
    have hu := htaken.storeBytes hstore
    exact ⟨hu.listed, hu.unread⟩
  all_goals exact ⟨hs.listed, hs.unread⟩

theorem answer_keeps_runRecord {r : Reference} {pas : List PAddr} (hs : s.RunRecord launch) (h : answer r pas s = .ok t) :
    t.RunRecord launch := by
  rcases (answer_ok_iff r pas s t).1 h with ⟨-, rfl⟩ | ⟨n, -, rfl⟩ | ⟨bytes, u, -, hstore, rfl⟩
  · exact ⟨hs.listed, hs.unread⟩
  · exact ⟨hs.listed, hs.unread⟩
  · have hu := hs.storeBytes hstore
    exact ⟨hu.listed, hu.unread⟩

/-- Settles O55, by the three things a step can do: take a request, run an awaited word, answer a reference. -/
theorem stepKeepsRunRecord : Obligations.StepKeepsRunRecord := by
  intro launch s t hs h
  rcases step_next_cases h with ⟨-, hrequest⟩ | ⟨w, word, i, hp, hf, -, hexec⟩ | ⟨r, pas, -, hanswer⟩
  · exact takeRequest_keeps_runRecord hs hrequest
  · exact exec_keeps_runRecord hs hp hf hexec
  · exact answer_keeps_runRecord (s := s.setPhase .idle) ⟨hs.listed, hs.unread⟩ hanswer

/-! ### Runs -/

/-- At launch no byte differs from itself, and no entry has been read. -/
theorem runRecord_of_launch (hread : s.entriesRead = []) : s.RunRecord s.mem where
  listed := fun _ hne => absurd rfl hne
  unread := fun e he => by simp [hread] at he

/-- Settles O56: the reset state is a launch state, for it has read no entry. -/
theorem launchMeetsRunRecord : Obligations.LaunchMeetsRunRecord :=
  ⟨fun _ hread _ => runRecord_of_launch hread, runRecord_of_launch rfl⟩

theorem Reaches.runRecord (h : Reaches s t) (hs : s.RunRecord launch) : t.RunRecord launch := by
  induction h with
  | start => exact hs
  | step _ hstep ih => exact stepKeepsRunRecord _ _ _ ih hstep

/-- A byte that differed from its launch value would be listed, and would lie in an entry read. -/
theorem State.RunRecord.word64_eq {e : PAddr} (ht : t.RunRecord launch) (he : e ∈ t.entriesRead) :
    word64 t.mem e.toNat = word64 launch e.toNat := by
  have hbyte : ∀ k, k < 8 → t.mem.read (e.toNat + k) = launch.read (e.toNat + k) := by
    intro k hk
    by_contra hne
    obtain ⟨c, hc, hck⟩ := ht.listed _ hne
    have hin : inEntry e c = true := (inEntry_iff e c).2 (by omega)
    cases hin.symm.trans (ht.unread e he c hc)
  exact (word64_eq_iff _ _ _).2 fun k hk => (hbyte k hk).trans ((word64_eq_iff _ _ _).1 rfl k hk)

/-- Settles O45: the record of the run at `t` gives the whole word of an entry read. -/
theorem tablesConstantInARun : Obligations.TablesConstantInARun := by
  intro s t hread _ hrun e he i _ _
  rw [(hrun.runRecord (runRecord_of_launch hread)).word64_eq he]

end Sys2Proof.Machine
end

section
/-! PROOFS. The order of the boot requests, and a run without requests (R101, R107). -/

namespace Sys2Proof.Machine

/-- A stop is terminal (R107): more steps give the same stop. -/
theorem steps_of_stop {s : State} {e : Stop} (h : step s = e.outcome) {k : Nat} (hk : 1 ≤ k) : steps k s = e.outcome := by
  obtain ⟨j, rfl⟩ := Nat.exists_eq_add_of_le' hk
  rw [steps, h]
  cases e <;> rfl

/-- Settles O36: PAE then activation by O53 and O35; the other order stops at its first step, by O35. -/
theorem paeBeforeLongMode : Obligations.PaeBeforeLongMode := by
  intro s rest hp hlong hstarted
  constructor
  · intro hq
    obtain ⟨hpae, -⟩ := settingPae s _ hp hq
    obtain ⟨-, -, -, hactivate⟩ := activationNeedsPae
      { s with cr4Pae := true, requests := .activateLongMode :: rest, results := s.results ++ [.paeEnabled] } rest hp rfl
    rw [steps_next (hpae (.inl hstarted)), steps_one, hactivate rfl hlong hstarted]
    simp only [List.append_assoc, List.cons_append, List.nil_append]
  · intro hpae hq k hk
    obtain ⟨hfault, -⟩ := activationNeedsPae s _ hp hq
    exact steps_of_stop (e := .fault .gpActivation) (hfault hpae) hk

/-- Settles O18: an idle step takes a request, and here there is none to take. -/
theorem idleWithoutRequestsStays : Obligations.IdleWithoutRequestsStays := by
  intro s hp hq
  simp only [step, hp, takeRequest, hq]

end Sys2Proof.Machine
end
